-- ==== Sys2Proof/Word.lean ====
section
/-! DEFINITION. The bus word and the byte of its lanes (00_scope.md rule R8, 20_memory.md rule R44). -/

namespace Sys2Proof

/-- A 32-bit word: the bus data width and the command word (R8, R63). -/
abbrev Word := BitVec 32

/-- One byte lane of a word (R44). -/
abbrev Byte := BitVec 8

end Sys2Proof
end

