-- ==== Sys2Proof/Config.lean ====
section
/-! DEFINITION. The implementation parameters of 00_scope.md rules R5 to R7, the instance State.reset
uses, and the free values of the random source (R13). -/

namespace Sys2Proof

/-- The parameters a model takes (R38): W = 32·words (R5), MAX_E_TRIES (R6) and BASE (R7), each with
its constraint, so that a value outside the rules cannot be built. -/
structure Params where
  /-- K of rule R5: how many 32-bit words a data register has. -/
  words : Nat
  /-- MAX_E_TRIES (R6). -/
  maxTries : Nat
  /-- BASE, the bus address of the register window (R7). -/
  base : Nat
  words_ok : 1 ≤ words ∧ words ≤ 64
  maxTries_ok : 1 ≤ maxTries ∧ maxTries ≤ 2 ^ 32 - 1
  base_ok : base % 4096 = 0
  deriving DecidableEq, Repr

/-- W, the operand width in bits (R5). -/
abbrev Params.width (p : Params) : Nat := 32 * p.words

/-- DESIGN CHOICE (log entry 1): the instance that `State.reset` is built with, W = 32 and
MAX_E_TRIES = 4 as in 95_test_vectors.md, BASE = 0. The spec leaves all three OPEN; statements
quantify over the parameters, which every State carries. -/
def Config.params : Params where
  words := 1
  maxTries := 4
  base := 0
  words_ok := by decide
  maxTries_ok := by decide
  base_ok := by decide

/-- The free values of the random source (R13, R34, R116; log entry 5): the raw value of the n-th draw
after the draws that State lists have run out. No body: nothing can be proved of a value. -/
opaque Config.freeDraw : Nat → Nat

end Sys2Proof
end

