-- ==== Sys2Proof/Syntax.lean ====
section
/-! DEFINITION. The commands: one constructor per row of spec/opcode_table.json (30_encoding.md rule R66). -/

namespace Sys2Proof

/-- A 3-bit register index, D0 to D7 (R65, R17). -/
abbrev Reg := Fin 8

/-- A command. The fields are the register fields its row of rule R66 uses, destinations first, each
under its field name; `h` is the want_y hint of XGCD (R64). -/
inductive Instr where
  /-- GCD (R77): fd0 = g, fs0 = a, fs1 = b. -/
  | gcd (fd0 fs0 fs1 : Reg)
  /-- XGCD (R79): fd0 = g, fd1 = x, fd2 = y, fs0 = a, fs1 = b; `h = false` is spelled XGCD.NOY. -/
  | xgcd (h : Bool) (fd0 fd1 fd2 fs0 fs1 : Reg)
  /-- MODINV (R81): fd0 = inverse, fs0 = a, fs1 = m. -/
  | modinv (fd0 fs0 fs1 : Reg)
  /-- KEYGEN (R83): fd0 = n, fd1 = e, fd2 = d, fs0 = p, fs1 = q. -/
  | keygen (fd0 fd1 fd2 fs0 fs1 : Reg)
  /-- EXPMOD (R89): fd0 = result, fs0 = base, fs1 = exponent, fs2 = modulus. -/
  | expmod (fd0 fs0 fs1 fs2 : Reg)
  deriving DecidableEq, Repr

end Sys2Proof
end

