-- ==== Sys2Proof/WellFormed.lean ====
section
/-! DEFINITION. What a command must meet beyond its row's shape: the distinct destinations of
30_encoding.md rule R67. -/

namespace Sys2Proof

/-- Three destination indices are pairwise distinct (R67, 20_memory.md R50). -/
def distinctDests (fd0 fd1 fd2 : Reg) : Bool :=
  decide (fd0 ≠ fd1) && decide (fd0 ≠ fd2) && decide (fd1 ≠ fd2)

/-- Rule R67's distinctness condition. The other conditions of R67 (reserved bits, H, unused fields)
cannot be broken by a term of `Instr`; the decoder refuses the words that break them. -/
def Instr.wellFormed : Instr → Bool
  | .gcd _ _ _ => true
  | .xgcd _ fd0 fd1 fd2 _ _ => distinctDests fd0 fd1 fd2
  | .modinv _ _ _ => true
  | .keygen fd0 fd1 fd2 _ _ => distinctDests fd0 fd1 fd2
  | .expmod _ _ _ _ => true

end Sys2Proof
end

