-- ==== Sys2Proof/Decode.lean ====
section
/-! DEFINITION. Decoder, encoder and legality of command words (30_encoding.md rules R63 to R70). -/

namespace Sys2Proof

/-- Why a word has no row's shape (R68). All are one architectural error, ILLEGAL_COMMAND. -/
inductive DecodeError where
  /-- Opcode 0x00 or 0x06 to 0xFF. -/
  | opcode
  /-- RSV, bits 22:18, is not 0. -/
  | reserved
  /-- H = 1 outside XGCD. -/
  | hint
  /-- An unused FD1 or FD2 field is not 0. -/
  | unusedDest
  /-- An unused FS2 field is not 0. -/
  | unusedSource
  deriving DecidableEq, Repr

/-- OPC, bits 31:24 (R63). -/
def opcField (v : Word) : BitVec 8 := v.extractLsb' 24 8
/-- H, bit 23 (R63). -/
def hField (v : Word) : Bool := v.getLsbD 23
/-- RSV, bits 22:18 (R63). -/
def rsvField (v : Word) : BitVec 5 := v.extractLsb' 18 5
/-- The 3-bit register index whose lowest bit is bit `lo` (R63, R65). -/
def regField (lo : Nat) (v : Word) : Reg := ⟨(v.extractLsb' lo 3).toNat, (v.extractLsb' lo 3).isLt⟩
/-- FS2, bits 17:15 (R63). -/
def fs2Field (v : Word) : Reg := regField 15 v
/-- FS1, bits 14:12 (R63). -/
def fs1Field (v : Word) : Reg := regField 12 v
/-- FS0, bits 11:9 (R63). -/
def fs0Field (v : Word) : Reg := regField 9 v
/-- FD2, bits 8:6 (R63). -/
def fd2Field (v : Word) : Reg := regField 6 v
/-- FD1, bits 5:3 (R63). -/
def fd1Field (v : Word) : Reg := regField 3 v
/-- FD0, bits 2:0 (R63). -/
def fd0Field (v : Word) : Reg := regField 0 v

/-- The shape shared by GCD and MODINV: FD0, FS0, FS1 used, the other fields 0 (R66). -/
def decodeTwoSource (mk : Reg → Reg → Reg → Instr) (v : Word) : Except DecodeError Instr :=
  if hField v then .error .hint
  else if fd1Field v ≠ 0 ∨ fd2Field v ≠ 0 then .error .unusedDest
  else if fs2Field v ≠ 0 then .error .unusedSource
  else .ok (mk (fd0Field v) (fs0Field v) (fs1Field v))

/-- XGCD: H free, three destinations, two sources (R66). -/
def decodeXgcd (v : Word) : Except DecodeError Instr :=
  if fs2Field v ≠ 0 then .error .unusedSource
  else .ok (.xgcd (hField v) (fd0Field v) (fd1Field v) (fd2Field v) (fs0Field v) (fs1Field v))

/-- KEYGEN: three destinations, two sources (R66). -/
def decodeKeygen (v : Word) : Except DecodeError Instr :=
  if hField v then .error .hint
  else if fs2Field v ≠ 0 then .error .unusedSource
  else .ok (.keygen (fd0Field v) (fd1Field v) (fd2Field v) (fs0Field v) (fs1Field v))

/-- EXPMOD: one destination, three sources (R66). -/
def decodeExpmod (v : Word) : Except DecodeError Instr :=
  if hField v then .error .hint
  else if fd1Field v ≠ 0 ∨ fd2Field v ≠ 0 then .error .unusedDest
  else .ok (.expmod (fd0Field v) (fs0Field v) (fs1Field v) (fs2Field v))

/-- The command whose row's shape a word has (R66: "A word with (word & mask) = match has the row's
shape"). Total; a word of no row is refused by name. Legality adds `Instr.wellFormed`. -/
def decode (v : Word) : Except DecodeError Instr :=
  if rsvField v ≠ 0 then .error .reserved
  else if opcField v = 0x01#8 then decodeTwoSource .gcd v
  else if opcField v = 0x02#8 then decodeXgcd v
  else if opcField v = 0x03#8 then decodeTwoSource .modinv v
  else if opcField v = 0x04#8 then decodeKeygen v
  else if opcField v = 0x05#8 then decodeExpmod v
  else .error .opcode

/-- The legality predicate, total on every word (R67): a row's shape and distinct destinations. -/
def legal (v : Word) : Bool :=
  match decode v with
  | .ok i => i.wellFormed
  | .error _ => false

/-- The word with the given fields and RSV = 0 (R71's formula). -/
def packFields (opc : BitVec 8) (h : Bool) (fs2 fs1 fs0 fd2 fd1 fd0 : Reg) : Word :=
  opc.setWidth 32 <<< 24 ||| (BitVec.ofBool h).setWidth 32 <<< 23 |||
    BitVec.ofNat 32 fs2 <<< 15 ||| BitVec.ofNat 32 fs1 <<< 12 ||| BitVec.ofNat 32 fs0 <<< 9 |||
    BitVec.ofNat 32 fd2 <<< 6 ||| BitVec.ofNat 32 fd1 <<< 3 ||| BitVec.ofNat 32 fd0

/-- The opcode of each command (R66). -/
def Instr.opcode : Instr → BitVec 8
  | .gcd _ _ _ => 0x01#8
  | .xgcd _ _ _ _ _ _ => 0x02#8
  | .modinv _ _ _ => 0x03#8
  | .keygen _ _ _ _ _ => 0x04#8
  | .expmod _ _ _ _ => 0x05#8

/-- The word of a command, every field it does not use set to 0 (R66, R71). -/
def encode (i : Instr) : Word :=
  match i with
  | .gcd fd0 fs0 fs1 => packFields i.opcode false 0 fs1 fs0 0 0 fd0
  | .xgcd h fd0 fd1 fd2 fs0 fs1 => packFields i.opcode h 0 fs1 fs0 fd2 fd1 fd0
  | .modinv fd0 fs0 fs1 => packFields i.opcode false 0 fs1 fs0 0 0 fd0
  | .keygen fd0 fd1 fd2 fs0 fs1 => packFields i.opcode false 0 fs1 fs0 fd2 fd1 fd0
  | .expmod fd0 fs0 fs1 fs2 => packFields i.opcode false fs2 fs1 fs0 0 0 fd0

/-- The low `nbits` bits of `w` as a command word, every bit above them 0. A command is one 32-bit
word delivered whole (R70), so bit k of the table's numbering is bit k of the word. -/
def tableWord (nbits w : Nat) : Word := BitVec.ofNat 32 (w % 2 ^ nbits)

/-- The host's question: the command the decoder reads from a table row's bits. -/
def decodeTableWord (nbits w : Nat) : Option Instr :=
  match decode (tableWord nbits w) with
  | .ok i => some i
  | .error _ => none

end Sys2Proof
end

