-- ==== Sys2Proof/Machine/State.lean ====
section
/-! DEFINITION. The state as plain data: the block's architectural state (10_state.md rule R38), its
parameters, and the agents around it (hosts, random source, schedule). -/

namespace Sys2Proof.Machine

/-- Why a step stops. Neither comes from a command: a command's errors are ERRCODE values. -/
inductive Fault where
  /-- Raised by a host's access to an address outside [BASE, BASE + 0xFFF] (`accessBus`): what is there
  is the platform's (R40, R53) and the spec gives no effect. Safe: the model stops (log entry 8). -/
  | outsideWindow
  /-- Raised by a COMPLETE while BUSY = 1 and L.cmd is no legal command (`fetch`). Acceptance latches
  legal words only (R48), so no run reaches it. Safe: the model stops (log entry 9). -/
  | illegalLatch
  deriving DecidableEq, Repr

/-- Why a command has no meaning. -/
inductive Refusal where
  /-- Raised by an arm of `exec` whose command is not modelled; there is none. Safe. -/
  | notModelled (mnemonic : String)
  deriving DecidableEq, Repr

/-- The error codes of rule R92 (60_exceptions.md). Code 0 is "no error" and 7 to 15 are never produced. -/
inductive ErrorCode where
  /-- Code 1 (R93). -/
  | noInverse
  /-- Code 2 (R95). -/
  | invalidKeyParams
  /-- Code 3 (R96). -/
  | illegalCommand
  /-- Code 4 (R97). -/
  | zeroModulus
  /-- Code 5 (R94). -/
  | range
  /-- Code 6 (R98). -/
  | retryExhausted
  deriving DecidableEq, Repr

/-- The latch L (R33): the accepted command word and the operands copied at acceptance. -/
structure Latch (w : Nat) where
  cmd : Word
  op0 : BitVec w
  op1 : BitVec w
  op2 : BitVec w
  deriving DecidableEq, Repr

/-- The block's architectural state for an operand width w, the tuple of rule R38. -/
structure Block (w : Nat) where
  /-- D0 to D7 (R17). -/
  d : Vector (BitVec w) 8
  /-- STATUS.BUSY (R22). -/
  busy : Bool
  /-- STATUS.DONE (R23). -/
  done : Bool
  /-- STATUS.ERR (R24). -/
  err : Bool
  /-- STATUS.ERRCODE (R25). -/
  errcode : BitVec 4
  /-- STATUS.COLL (R26). -/
  coll : Bool
  /-- CTRL.IRQ_EN (R30). -/
  irqEn : Bool
  /-- CMD_LAST, the read view of CMD (R29). -/
  cmdLast : Word
  /-- L (R33). -/
  latch : Latch w
  deriving DecidableEq, Repr

/-- The latch after a reset (R33, R114). -/
def Latch.reset (w : Nat) : Latch w := { cmd := 0#32, op0 := 0#w, op1 := 0#w, op2 := 0#w }

/-- The block after a reset, hardware or soft (R113, R114). -/
def Block.reset (w : Nat) : Block w where
  d := Vector.replicate 8 0#w
  busy := false
  done := false
  err := false
  errcode := 0#4
  coll := false
  irqEn := false
  cmdLast := 0#32
  latch := Latch.reset w

/-- The random source (R13, R34), the model's own field: `queue` lists values still to be drawn, and
once it is empty the k-th further value is the free value `Config.freeDraw k` (log entry 5). -/
structure Rng where
  queue : List Nat
  count : Nat
  deriving DecidableEq, Repr

/-- One operation of a host (20_memory.md rules R42, R43; 30_encoding.md rules R75, R76). Addresses are
bus addresses, sizes are in bytes; a burst is a size other than 4 (R45, log entry 10). -/
inductive HostOp where
  /-- A read of `size` bytes at `addr`. -/
  | read (addr size : Nat)
  /-- A write of `v` with `size` bytes at `addr`. -/
  | write (addr size : Nat) (v : Word)
  /-- The polling loop of rule R76: reads STATUS until a read sees BUSY = 0. -/
  | wait
  /-- Waiting for the interrupt instead of polling (R76, last sentence). -/
  | waitIrq
  deriving DecidableEq, Repr

/-- A host (R9): its operations still to come in program order (R55), the values its reads returned,
oldest first, and the sticky fault of a BusError access (R62). -/
structure HostState where
  ops : List HostOp
  reads : List Word
  faulted : Bool
  deriving DecidableEq, Repr

/-- Whose transition comes next (R55, R103). -/
inductive Turn where
  /-- Host number n performs its next operation, or polls once more. -/
  | host (n : Nat)
  /-- The engine: COMPLETE if BUSY = 1 (R49). -/
  | engine
  /-- The platform asserts the hardware reset (R113). -/
  | hardReset
  deriving DecidableEq, Repr

end Sys2Proof.Machine

namespace Sys2Proof.Machine

/-- The machine: its parameters, the block, and the agents around the block. -/
structure State where
  /-- W, MAX_E_TRIES and BASE (R5 to R7); no step changes them. -/
  params : Params
  /-- The block's architectural state (R38). -/
  block : Block params.width
  /-- The random source (R13). -/
  rng : Rng
  /-- The hosts (R9, R110). -/
  hosts : List HostState
  /-- The turns still to come: the interleaving of rule R55, as data. -/
  schedule : List Turn
  deriving DecidableEq, Repr

/-- The machine after reset for any parameters: the block as rule R114 says, no host operation, no
turn and no listed draw (log entries 3 and 5). -/
def State.resetWith (p : Params) : State where
  params := p
  block := Block.reset p.width
  rng := { queue := [], count := 0 }
  hosts := []
  schedule := []

/-- The machine right after reset, at the parameters of log entry 1. -/
def State.reset : State := State.resetWith Config.params

end Sys2Proof.Machine
end

