-- ==== Sys2Proof/Machine/Operands.lean ====
section
/-! DEFINITION. Register access and the readings of a register's bits (00_scope.md rule R11,
10_state.md rules R17 to R19), and which registers a command reads and writes (30_encoding.md R66). -/

namespace Sys2Proof.Machine

/-- `uval(v)` (R11): every operand is read so (R19). -/
def uval {w : Nat} (v : BitVec w) : Nat := v.toNat

/-- `sval(v)` (R11), the two's complement reading of an XGCD coefficient. -/
def sval {w : Nat} (v : BitVec w) : Int := v.toInt

/-- `enc_W(z)` (R11): the W-bit pattern of an integer. -/
def enc (w : Nat) (z : Int) : BitVec w := BitVec.ofInt w z

/-- D[k] (R17). -/
def Block.reg {w : Nat} (b : Block w) (k : Reg) : BitVec w := b.d[k.val]

/-- D[k] <- v (R17). No register is hardwired. -/
def Block.setReg {w : Nat} (b : Block w) (k : Reg) (v : BitVec w) : Block w :=
  { b with d := b.d.set k.val v }

/-- The source registers a command reads at acceptance, FS0, FS1 and, where it uses it, FS2 (R18, R66). -/
def sources : Instr → Reg × Reg × Option Reg
  | .gcd _ fs0 fs1 => (fs0, fs1, none)
  | .xgcd _ _ _ _ fs0 fs1 => (fs0, fs1, none)
  | .modinv _ fs0 fs1 => (fs0, fs1, none)
  | .keygen _ _ _ fs0 fs1 => (fs0, fs1, none)
  | .expmod _ fs0 fs1 fs2 => (fs0, fs1, some fs2)

/-- The destination registers a command writes on success (R18). -/
def destinations : Instr → List Reg
  | .gcd fd0 _ _ => [fd0]
  | .xgcd _ fd0 fd1 fd2 _ _ => [fd0, fd1, fd2]
  | .modinv fd0 _ _ => [fd0]
  | .keygen fd0 fd1 fd2 _ _ => [fd0, fd1, fd2]
  | .expmod fd0 _ _ _ => [fd0]

/-- What acceptance latches for the command `i` whose word is `v` (R33, R48): copies of the used source
registers; an unused operand holds 0. -/
def Block.latchFor {w : Nat} (b : Block w) (v : Word) (i : Instr) : Latch w where
  cmd := v
  op0 := b.reg (sources i).1
  op1 := b.reg (sources i).2.1
  op2 := match (sources i).2.2 with
    | some fs2 => b.reg fs2
    | none => 0#w

end Sys2Proof.Machine
end

