-- ==== Sys2Proof/Machine/Flags.lean ====
section
/-! DEFINITION. Every way the STATUS flags are read and written (10_state.md rules R21 to R26, R32), and
the interrupt output (R36). -/

namespace Sys2Proof.Machine

/-- The value of an error code (R92). -/
def ErrorCode.code : ErrorCode → BitVec 4
  | .noInverse => 1#4
  | .invalidKeyParams => 2#4
  | .illegalCommand => 3#4
  | .zeroModulus => 4#4
  | .range => 5#4
  | .retryExhausted => 6#4

/-- The STATUS word (R21, R42): 23 zeros, COLL, ERRCODE, 0, ERR, DONE, BUSY. -/
def Block.statusWord {w : Nat} (b : Block w) : Word :=
  0#23 ++ BitVec.ofBool b.coll ++ b.errcode ++ 0#1 ++ BitVec.ofBool b.err ++
    BitVec.ofBool b.done ++ BitVec.ofBool b.busy

/-- The CTRL word (R30, R42): SRST and the reserved bits read 0 (R31). -/
def Block.ctrlWord {w : Nat} (b : Block w) : Word := 0#31 ++ BitVec.ofBool b.irqEn

/-- StatusWrite (R32): write-1-to-clear of DONE, ERR with ERRCODE, and COLL. The "return" from an
error (R107). -/
def Block.statusWrite {w : Nat} (b : Block w) (v : Word) : Block w :=
  { b with
    done := b.done && !v.getLsbD 1
    err := b.err && !v.getLsbD 2
    errcode := if v.getLsbD 2 then 0#4 else b.errcode
    coll := b.coll && !v.getLsbD 8 }

/-- What acceptance clears, for a legal and an illegal word alike (R48): DONE, ERR, ERRCODE; COLL is
kept (R26). -/
def Block.clearForAccept {w : Nat} (b : Block w) : Block w :=
  { b with done := false, err := false, errcode := 0#4 }

/-- A write dropped while busy (R52): only COLL changes (R26). -/
def Block.collide {w : Nat} (b : Block w) : Block w := { b with coll := true }

/-- The success flags (the preamble of 40_gcd_kernel.md, R49): BUSY 0, DONE 1, ERR 0, ERRCODE 0.
DEDUCED (log entry 6): R49 does not write ERR and ERRCODE, which acceptance has cleared. -/
def Block.endInSuccess {w : Nat} (b : Block w) : Block w :=
  { b with busy := false, done := true, err := false, errcode := 0#4 }

/-- Ending in an error, the block's one analogue of taking an exception (R101, R106): BUSY 0, DONE 1,
ERR 1 and the code. Used by every error completion (R49) and by an illegal word (R48, R96). -/
def Block.endInError {w : Nat} (b : Block w) (e : ErrorCode) : Block w :=
  { b with busy := false, done := true, err := true, errcode := e.code }

/-- The interrupt output, a function of state (R36, R104). -/
def Block.irq {w : Nat} (b : Block w) : Bool := b.irqEn && b.done

end Sys2Proof.Machine
end

