-- ==== Sys2Proof/Machine/Ops.lean ====
section
/-! DEFINITION. The block's transitions (20_memory.md): the register map, host reads and writes,
acceptance, completion and reset. -/

namespace Sys2Proof.Machine

/-- ID, the bytes "XGCD" (R27). -/
def idWord : Word := 0x58474344#32

/-- CFG (R27): W in bits 31:16, NREG = 8 in 15:8, VERSION = 1 in 7:0. -/
def cfgWord (p : Params) : Word := BitVec.ofNat 16 p.width ++ 8#8 ++ 1#8

/-- MAXTRY (R28). -/
def maxtryWord (p : Params) : Word := BitVec.ofNat 32 p.maxTries

/-- What stands at an offset of the window (R41). -/
inductive Slot where
  | id
  | cfg
  | maxtry
  | cmd
  | status
  | ctrl
  /-- Word j of D[k]. -/
  | data (k : Reg) (j : Nat)
  | reserved
  deriving DecidableEq, Repr

/-- D[k]'s first offset, 0x100 + 0x100·k (R41). -/
def regOffset (k : Reg) : Nat := 0x100 + 0x100 * k.val

/-- The slot at a data offset, for registers of `words` words: word j of D[k] stands at
0x100 + 0x100·k + 4·j; beyond the width and outside the eight registers all is reserved (R41). -/
def dataSlot (words off : Nat) : Slot :=
  if h : 0x100 ≤ off ∧ off < 0x900 then
    if off % 0x100 / 4 < words then
      .data ⟨off / 0x100 - 1, by omega⟩ (off % 0x100 / 4)
    else .reserved
  else .reserved

/-- The register map (R41), for an aligned offset. -/
def slotAt (words off : Nat) : Slot :=
  if off = 0x000 then .id
  else if off = 0x004 then .cfg
  else if off = 0x008 then .maxtry
  else if off = 0x010 then .cmd
  else if off = 0x014 then .status
  else if off = 0x018 then .ctrl
  else dataSlot words off

/-- Word j of a register: bits 32j+31 to 32j (R44). -/
def getWord {w : Nat} (x : BitVec w) (j : Nat) : Word := x.extractLsb' (32 * j) 32

/-- A register with word j replaced (R43). -/
def putWord {w : Nat} (x : BitVec w) (j : Nat) (v : Word) : BitVec w :=
  (x &&& ~~~((BitVec.allOnes 32).setWidth w <<< (32 * j))) ||| (v.setWidth w <<< (32 * j))

/-- Byte lane i of a word: bits 8i+7 to 8i (R44). -/
def byteLane (v : Word) (i : Nat) : Byte := v.extractLsb' (8 * i) 8

/-- The value a slot reads as (R42). -/
def Block.readSlot (p : Params) (b : Block p.width) : Slot → Word
  | .id => idWord
  | .cfg => cfgWord p
  | .maxtry => maxtryWord p
  | .cmd => b.cmdLast
  | .status => b.statusWord
  | .ctrl => b.ctrlWord
  | .data k j => getWord (b.reg k) j
  | .reserved => 0#32

/-- The window as bytes (R40, R44): the byte at address BASE + off is lane off mod 4 of the word at the
aligned offset below it. -/
def Block.windowByte (p : Params) (b : Block p.width) (off : Nat) : Byte :=
  byteLane (b.readSlot p (slotAt p.words (off - off % 4))) (off % 4)

/-- An access the block answers with BusError: not 32 bits wide, or misaligned (R45, R46). -/
def badAccess (off size : Nat) : Bool := decide (size ≠ 4) || decide (off % 4 ≠ 0)

/-- HostRead (R42): none is BusError. A read has no side effect (R47), so it gives a value only. -/
def Block.hostRead (p : Params) (b : Block p.width) (off size : Nat) : Option Word :=
  if badAccess off size then none else some (b.readSlot p (slotAt p.words off))

/-- Reset() on the block, for the hardware and the soft reset alike (R113, R114). -/
def Block.doReset {w : Nat} (_ : Block w) : Block w := Block.reset w

/-- Acceptance of an illegal word (R48, R68, R96): it ends at once in ILLEGAL_COMMAND; BUSY is not set
and no latch or data register changes. -/
def Block.acceptIllegal {w : Nat} (b : Block w) (v : Word) : Block w :=
  { b.clearForAccept.endInError .illegalCommand with cmdLast := v }

/-- Acceptance of a legal word, the command `i` (R48). -/
def Block.acceptLegal {w : Nat} (b : Block w) (v : Word) (i : Instr) : Block w :=
  { b.clearForAccept with cmdLast := v, latch := b.latchFor v i, busy := true }

/-- Accept(v), performed by a write to CMD while BUSY = 0 (R48). -/
def Block.accept {w : Nat} (b : Block w) (v : Word) : Block w :=
  match decode v with
  | .ok i => if i.wellFormed then b.acceptLegal v i else b.acceptIllegal v
  | .error _ => b.acceptIllegal v

/-- A write of CTRL (R30, R31, R43): soft reset if bit 1 is set, else IRQ_EN from bit 0. -/
def Block.ctrlWrite {w : Nat} (b : Block w) (v : Word) : Block w :=
  if v.getLsbD 1 then b.doReset else { b with irqEn := v.getLsbD 0 }

/-- The effect of an aligned 32-bit write on a slot (R43); CMD and data words are dropped with COLL
while busy (R52), ID, CFG, MAXTRY and reserved offsets ignore writes (R27, R28, R53). -/
def Block.writeSlot {w : Nat} (b : Block w) (t : Slot) (v : Word) : Block w :=
  match t with
  | .cmd => if b.busy then b.collide else b.accept v
  | .status => b.statusWrite v
  | .ctrl => b.ctrlWrite v
  | .data k j => if b.busy then b.collide else b.setReg k (putWord (b.reg k) j v)
  | .id => b
  | .cfg => b
  | .maxtry => b
  | .reserved => b

/-- HostWrite (R43): none is BusError, which changes nothing. -/
def Block.hostWrite (p : Params) (b : Block p.width) (off size : Nat) (v : Word) :
    Option (Block p.width) :=
  if badAccess off size then none else some (b.writeSlot (slotAt p.words off) v)

/-- CommitResults (R50): every result is written to its destination. -/
def Block.commit {w : Nat} (b : Block w) (results : List (Reg × BitVec w)) : Block w :=
  results.foldl (fun b r => b.setReg r.1 r.2) b

/-- What COMPLETE does with what Compute gave (R49, R50): all results and the success flags, or no data
register and the error flags. -/
def Block.complete {w : Nat} (b : Block w) (r : Except ErrorCode (List (Reg × BitVec w))) : Block w :=
  match r with
  | .ok results => (b.commit results).endInSuccess
  | .error e => b.endInError e

/-- The machine with its block replaced; nothing else changes. -/
abbrev State.withBlock (s : State) (b : Block s.params.width) : State := { s with block := b }

/-- COMPLETE's effect on the machine, shared by every command (R49). -/
abbrev State.complete (s : State)
    (r : Except ErrorCode (List (Reg × BitVec s.params.width))) : State :=
  s.withBlock (s.block.complete r)

/-- The hardware reset (R113): Reset() on the block. The agents around it are not the block's (R116,
log entry 11). -/
abbrev State.hardReset (s : State) : State := s.withBlock s.block.doReset

/-- The command the engine completes: L.cmd, which a legal acceptance has latched (R33, R48). -/
def fetch (s : State) : Except Fault Instr :=
  match decode s.block.latch.cmd with
  | .ok i => if i.wellFormed then .ok i else .error .illegalLatch
  | .error _ => .error .illegalLatch

end Sys2Proof.Machine
end

