-- ==== Sys2Proof/Machine/GcdKernel.lean ====
section
/-! DEFINITION. The GCD kernel (40_gcd_kernel.md): `gcd`, `xgcd`, and the commands GCD and XGCD. -/

namespace Sys2Proof.Machine

/-- A number of Euclidean steps that suffices when the argument that falls starts at n: it halves at
least every second step. -/
def euclidFuel (n : Nat) : Nat := 2 * n.log2 + 3

/-- `gcd` of rule R77 with a bound on the number of calls. -/
def stdGcdFuel : Nat → Nat → Nat → Nat
  | 0, a, _ => a
  | f + 1, a, b => if b = 0 then a else stdGcdFuel f b (a % b)

/-- `gcd(a, b)` (R77): a if b = 0, else gcd(b, a mod b). -/
def stdGcd (a b : Nat) : Nat := stdGcdFuel (euclidFuel b) a b

/-- `xgcd` of rule R78 with a bound on the number of calls. -/
def xgcdFuel : Nat → Nat → Nat → Nat × Int × Int
  | 0, _, b => (b, 0, 1)
  | f + 1, a, b =>
    if a = 0 then (b, 0, 1)
    else
      match xgcdFuel f (b % a) a with
      | (g, x1, y1) => (g, y1 - (b / a : Nat) * x1, x1)

/-- `xgcd(a, b)` (R78): the exact Bézout triple; the guard is a > 0 (90_conflicts.md C1). -/
def xgcd (a b : Nat) : Nat × Int × Int := xgcdFuel (euclidFuel a) a b

/-- The result of GCD (R77): there is no error. -/
def gcdResult {w : Nat} (fd0 : Reg) (l : Latch w) : Except ErrorCode (List (Reg × BitVec w)) :=
  .ok [(fd0, enc w (stdGcd (uval l.op0) (uval l.op1)))]

/-- A coefficient has a W-bit two's complement pattern (R79). -/
def fitsSigned (w : Nat) (z : Int) : Bool := decide (-(2 ^ (w - 1)) ≤ z) && decide (z < 2 ^ (w - 1))

/-- The result of XGCD (R79), for H = 0 and H = 1 alike (R64). -/
def xgcdResult {w : Nat} (fd0 fd1 fd2 : Reg) (l : Latch w) :
    Except ErrorCode (List (Reg × BitVec w)) :=
  match xgcd (uval l.op0) (uval l.op1) with
  | (g, x, y) =>
    if fitsSigned w x && fitsSigned w y then .ok [(fd0, enc w g), (fd1, enc w x), (fd2, enc w y)]
    else .error .range

/-- GCD (R77), run by COMPLETE over the latched operands. -/
def execGcd (fd0 : Reg) (s : State) : Host.Outcome State Fault Refusal :=
  .next (s.complete (gcdResult fd0 s.block.latch))

/-- XGCD (R79), run by COMPLETE over the latched operands. -/
def execXgcd (fd0 fd1 fd2 : Reg) (s : State) : Host.Outcome State Fault Refusal :=
  .next (s.complete (xgcdResult fd0 fd1 fd2 s.block.latch))

end Sys2Proof.Machine
end

