-- ==== Sys2Proof/Machine/Cipher.lean ====
section
/-! DEFINITION. The modular exponentiation engine (43_cipher.md): EXPMOD. -/

namespace Sys2Proof.Machine

/-- The loop of rule R90 with a bound on its iterations; k halves at each. -/
def expmodLoop (n : Nat) : Nat → Nat → Nat → Nat → Nat
  | 0, r, _, _ => r
  | f + 1, r, b, k =>
    if k = 0 then r
    else expmodLoop n f (if k % 2 = 1 then r * b % n else r) (b * b % n) (k / 2)

/-- `expmod(m, e, n)` (R90): right-to-left square-and-multiply, for n ≥ 1. -/
def expmod (m e n : Nat) : Nat := expmodLoop n (e.log2 + 1) (1 % n) (m % n) e

/-- The result of EXPMOD (R89). -/
def expmodResult {w : Nat} (fd0 : Reg) (l : Latch w) : Except ErrorCode (List (Reg × BitVec w)) :=
  if uval l.op2 = 0 then .error .zeroModulus
  else .ok [(fd0, enc w (expmod (uval l.op0) (uval l.op1) (uval l.op2)))]

/-- EXPMOD (R89), run by COMPLETE over the latched operands. ENCRYPT and DECRYPT are this (R72, R73). -/
def execExpmod (fd0 : Reg) (s : State) : Host.Outcome State Fault Refusal :=
  .next (s.complete (expmodResult fd0 s.block.latch))

end Sys2Proof.Machine
end

