-- ==== Sys2Proof/Machine/ModularInverse.lean ====
section
/-! DEFINITION. The modular inverse unit (41_modular_inverse.md): MODINV. -/

namespace Sys2Proof.Machine

/-- The modular inverse of rule R81 with its two errors, in its check order (R102). -/
def modInverse (a m : Nat) : Except ErrorCode Nat :=
  match xgcd a m with
  | (g, x, _) =>
    if g ≠ 1 then .error .noInverse
    else if m = 0 then .error .zeroModulus
    else .ok (x % (m : Int)).toNat

/-- The result of MODINV (R81). -/
def modinvResult {w : Nat} (fd0 : Reg) (l : Latch w) : Except ErrorCode (List (Reg × BitVec w)) :=
  match modInverse (uval l.op0) (uval l.op1) with
  | .error e => .error e
  | .ok r => .ok [(fd0, enc w r)]

/-- MODINV (R81), run by COMPLETE over the latched operands. -/
def execModinv (fd0 : Reg) (s : State) : Host.Outcome State Fault Refusal :=
  .next (s.complete (modinvResult fd0 s.block.latch))

end Sys2Proof.Machine
end

