-- ==== Sys2Proof/Machine/KeyGenerator.lean ====
section
/-! DEFINITION. The RSA key generator (42_key_generator.md): KEYGEN and its draws (00_scope.md R13). -/

namespace Sys2Proof.Machine

/-- φ over ℤ (R83, R84); it may be 0 or negative. -/
def totient (p q : Nat) : Int := ((p : Int) - 1) * ((q : Int) - 1)

/-- The checks made before sampling, in their order (R84, R85, R102): the key-parameter guard, then the
width of the modulus. -/
def keyParamError (w p q : Nat) : Option ErrorCode :=
  if p = q ∨ totient p q < 3 then some .invalidKeyParams
  else if 2 ^ w ≤ p * q then some .range
  else none

/-- A raw value of the random source as a draw of [2, φ − 1] (R13): itself where it lies there; any
other value stands for one that does (log entry 5). -/
def drawInRange (phi raw : Nat) : Nat :=
  if 2 ≤ raw ∧ raw < phi then raw else 2 + raw % (phi - 2)

/-- Draw() (R12, R13): the next value of the source. -/
def Rng.draw (phi : Nat) (g : Rng) : Nat × Rng :=
  match g.queue with
  | r :: rest => (drawInRange phi r, { g with queue := rest })
  | [] => (drawInRange phi (Config.freeDraw g.count), { g with count := g.count + 1 })

/-- The sampling loop (R86): at most `tries` draws, the last of them the first one coprime to φ. Gives
the draws made, and the source after them. -/
def sample (phi : Nat) : Nat → Rng → List Nat × Rng
  | 0, g => ([], g)
  | tries + 1, g =>
    match g.draw phi with
    | (r, g1) =>
      if stdGcd r phi = 1 then ([r], g1)
      else
        match sample phi tries g1 with
        | (rs, g2) => (r :: rs, g2)

/-- The draws one COMPLETE of KEYGEN makes (R86): none when a check before sampling fails. -/
def keygenDraws (p : Params) (pp qq : Nat) (g : Rng) : List Nat × Rng :=
  match keyParamError p.width pp qq with
  | some _ => ([], g)
  | none => sample (totient pp qq).toNat p.maxTries g

/-- The public exponent: the first draw coprime to φ, if there is one (R86). -/
def acceptedDraw (phi : Nat) (draws : List Nat) : Option Nat :=
  draws.find? (fun r => decide (stdGcd r phi = 1))

/-- Compute for KEYGEN (R49, R83): (n, e, d) from p, q and the draws, or the first error in the order
of rule R102. NO_INVERSE is kept as rule R87 asks; ZERO_MODULUS of `modInverse` cannot arise. -/
def keyTriple (w p q : Nat) (draws : List Nat) : Except ErrorCode (Nat × Nat × Nat) :=
  match keyParamError w p q with
  | some e => .error e
  | none =>
    match acceptedDraw (totient p q).toNat draws with
    | none => .error .retryExhausted
    | some e =>
      match modInverse e (totient p q).toNat with
      | .error err => .error err
      | .ok d => .ok (p * q, e, d)

/-- The result of KEYGEN (R83). -/
def keygenResult {w : Nat} (fd0 fd1 fd2 : Reg) (l : Latch w) (draws : List Nat) :
    Except ErrorCode (List (Reg × BitVec w)) :=
  match keyTriple w (uval l.op0) (uval l.op1) draws with
  | .error e => .error e
  | .ok (n, e, d) => .ok [(fd0, enc w n), (fd1, enc w e), (fd2, enc w d)]

/-- KEYGEN (R83), run by COMPLETE over the latched operands and the draws it takes from the source. -/
def execKeygen (fd0 fd1 fd2 : Reg) (s : State) : Host.Outcome State Fault Refusal :=
  match keygenDraws s.params (uval s.block.latch.op0) (uval s.block.latch.op1) s.rng with
  | (draws, g) =>
    .next { s.complete (keygenResult fd0 fd1 fd2 s.block.latch draws) with rng := g }

/-- The draw lists rule R86 admits for one COMPLETE of KEYGEN on p and q: the empty list when a check
before sampling fails; else a list of draws of [2, φ − 1] of which only the last is coprime to φ, at
most MAX_E_TRIES long; or MAX_E_TRIES draws none of which is. -/
def admittedDraws (p : Params) (pp qq : Nat) (draws : List Nat) : Prop :=
  match keyParamError p.width pp qq with
  | some _ => draws = []
  | none =>
    (∀ r ∈ draws, 2 ≤ r ∧ (r : Int) ≤ totient pp qq - 1) ∧
      ((∃ before e, draws = before ++ [e] ∧ draws.length ≤ p.maxTries ∧
          (∀ r ∈ before, Nat.gcd r (totient pp qq).toNat ≠ 1) ∧
          Nat.gcd e (totient pp qq).toNat = 1) ∨
        (draws.length = p.maxTries ∧ ∀ r ∈ draws, Nat.gcd r (totient pp qq).toNat ≠ 1))

end Sys2Proof.Machine
end

