-- ==== Sys2Proof/Machine/Dispatch.lean ====
section
/-! DEFINITION. What COMPLETE does for each command (20_memory.md rule R49). The source fields do not
reach the meanings: acceptance has latched their registers (rules R33, R48). H reaches none (R64). -/

namespace Sys2Proof.Machine

def exec (i : Instr) (s : State) : Host.Outcome State Fault Refusal :=
  match i with
  | .gcd fd0 _ _ => Sys2Proof.Machine.execGcd fd0 s
  | .xgcd _ fd0 fd1 fd2 _ _ => Sys2Proof.Machine.execXgcd fd0 fd1 fd2 s
  | .modinv fd0 _ _ => Sys2Proof.Machine.execModinv fd0 s
  | .keygen fd0 fd1 fd2 _ _ => Sys2Proof.Machine.execKeygen fd0 fd1 fd2 s
  | .expmod fd0 _ _ _ => Sys2Proof.Machine.execExpmod fd0 s

end Sys2Proof.Machine
end

