-- ==== Sys2Proof/Machine/Assembler.lean ====
section
/-! DEFINITION. The assembler syntax of commands (30_encoding.md rules R71 to R74), on lines of
characters. -/

namespace Sys2Proof.Machine

/-- The spellings of rules R71 to R73. -/
inductive Mnemonic where
  | gcd | xgcd | xgcdNoy | modinv | keygen | expmod | encrypt | decrypt
  deriving DecidableEq, Repr

/-- How a mnemonic is printed (R71 to R74). -/
def Mnemonic.text : Mnemonic → List Char
  | .gcd => ['G', 'C', 'D']
  | .xgcd => ['X', 'G', 'C', 'D']
  | .xgcdNoy => ['X', 'G', 'C', 'D', '.', 'N', 'O', 'Y']
  | .modinv => ['M', 'O', 'D', 'I', 'N', 'V']
  | .keygen => ['K', 'E', 'Y', 'G', 'E', 'N']
  | .expmod => ['E', 'X', 'P', 'M', 'O', 'D']
  | .encrypt => ['E', 'N', 'C', 'R', 'Y', 'P', 'T']
  | .decrypt => ['D', 'E', 'C', 'R', 'Y', 'P', 'T']

/-- Every mnemonic. -/
def Mnemonic.all : List Mnemonic :=
  [.gcd, .xgcd, .xgcdNoy, .modinv, .keygen, .expmod, .encrypt, .decrypt]

/-- A line: a mnemonic and its registers, destinations first, then sources (R71). -/
structure AsmLine where
  mnemonic : Mnemonic
  regs : List Reg
  deriving DecidableEq, Repr

/-- The command a line stands for (R71 to R73), if it has its mnemonic's number of registers. -/
def AsmLine.instr (l : AsmLine) : Option Instr :=
  match l.mnemonic, l.regs with
  | .gcd, [g, a, b] => some (.gcd g a b)
  | .xgcd, [g, x, y, a, b] => some (.xgcd true g x y a b)
  | .xgcdNoy, [g, x, y, a, b] => some (.xgcd false g x y a b)
  | .modinv, [i, a, m] => some (.modinv i a m)
  | .keygen, [n, e, d, p, q] => some (.keygen n e d p q)
  | .expmod, [r, b, e, m] => some (.expmod r b e m)
  | .encrypt, [c, m, e, n] => some (.expmod c m e n)
  | .decrypt, [m, c, d, n] => some (.expmod m c d n)
  | _, _ => none

/-- The word of a line; a line whose word would fail `Legal` is refused (R71). -/
def AsmLine.assemble (l : AsmLine) : Option Word :=
  match l.instr with
  | none => none
  | some i => if legal (encode i) then some (encode i) else none

/-- The line a disassembler prints (R74): H = 0 as XGCD.NOY, every EXPMOD as EXPMOD. -/
def disassemble : Instr → AsmLine
  | .gcd g a b => { mnemonic := .gcd, regs := [g, a, b] }
  | .xgcd h g x y a b =>
    { mnemonic := if h then .xgcd else .xgcdNoy, regs := [g, x, y, a, b] }
  | .modinv i a m => { mnemonic := .modinv, regs := [i, a, m] }
  | .keygen n e d p q => { mnemonic := .keygen, regs := [n, e, d, p, q] }
  | .expmod r b e m => { mnemonic := .expmod, regs := [r, b, e, m] }

/-- A register's spelling, `d0` to `d7` (R71). -/
def regText (k : Reg) : List Char := ['d', Char.ofNat (48 + k.val)]

/-- The registers of a line, separated by a comma and a space. -/
def regsText : List Reg → List Char
  | [] => []
  | [k] => regText k
  | k :: ks => regText k ++ [',', ' '] ++ regsText ks

/-- A line as it is printed. -/
def AsmLine.print (l : AsmLine) : List Char := l.mnemonic.text ++ [' '] ++ regsText l.regs

/-- A space or a tab. -/
def isBlank (c : Char) : Bool := c = ' ' || c = '\t'

/-- A run of characters without the blanks at its two ends. -/
def trimBlanks (cs : List Char) : List Char :=
  ((cs.dropWhile isBlank).reverse.dropWhile isBlank).reverse

/-- The pieces between commas. -/
def splitCommas : List Char → List (List Char)
  | [] => [[]]
  | c :: cs =>
    if c = ',' then [] :: splitCommas cs
    else
      match splitCommas cs with
      | piece :: pieces => (c :: piece) :: pieces
      | [] => [[c]]

/-- The register a trimmed, lower-case piece spells (R71). -/
def parseReg (cs : List Char) : Option Reg :=
  (List.finRange 8).find? (fun k => cs = regText k)

/-- The mnemonic a lower-case word spells (R71). -/
def parseMnemonic (cs : List Char) : Option Mnemonic :=
  Mnemonic.all.find? (fun m => cs = m.text.map Char.toLower)

/-- A line of text, case-insensitive (R71). Blanks before the mnemonic and around registers are
skipped (DESIGN CHOICE, log entry 15). -/
def parseLine (text : List Char) : Option AsmLine :=
  let cs := trimBlanks (text.map Char.toLower)
  match parseMnemonic (cs.takeWhile (fun c => !isBlank c)) with
  | none => none
  | some m =>
    match (splitCommas (cs.dropWhile (fun c => !isBlank c))).mapM (fun piece => parseReg (trimBlanks piece)) with
    | none => none
    | some regs => some { mnemonic := m, regs := regs }

end Sys2Proof.Machine
end

