-- ==== Sys2Proof/Machine/HostAgent.lean ====
section
/-! DEFINITION. The hosts: their moves over the bus (20_memory.md rules R42 to R62), the host-script
notation (30_encoding.md rules R75, R76), and whose turn comes next (R55, R103). -/

namespace Sys2Proof.Machine

/-- The address lies in the window [BASE, BASE + 0xFFF] (R40). -/
def inWindow (p : Params) (addr : Nat) : Bool := decide (p.base ≤ addr) && decide (addr < p.base + 4096)

/-- The host has performed its first operation. -/
def HostState.opDone (h : HostState) : HostState := { h with ops := h.ops.tail }

/-- The host's first operation has read the value v. -/
def HostState.opRead (h : HostState) (v : Word) : HostState :=
  { h with ops := h.ops.tail, reads := h.reads ++ [v] }

/-- The host's first operation ended in BusError: a host fault that is never cleared (R62). -/
def HostState.opFault (h : HostState) : HostState := { h with ops := h.ops.tail, faulted := true }

/-- The machine with host n's record replaced. -/
abbrev State.setHost (s : State) (n : Nat) (h : HostState) : State :=
  { s with hosts := s.hosts.set n h }

/-- Host n, with record h, performs `op` as one transition (R55). The block's part does not depend on n
(R110). -/
def performOp (s : State) (n : Nat) (h : HostState) (op : HostOp) : Host.Outcome State Fault Refusal :=
  match op with
  | .read addr size =>
    if inWindow s.params addr then
      match s.block.hostRead s.params (addr - s.params.base) size with
      | some v => .next (s.setHost n (h.opRead v))
      | none => .next (s.setHost n h.opFault)
    else .fault .outsideWindow
  | .write addr size v =>
    if inWindow s.params addr then
      match s.block.hostWrite s.params (addr - s.params.base) size v with
      | some b => .next ((s.withBlock b).setHost n h.opDone)
      | none => .next (s.setHost n h.opFault)
    else .fault .outsideWindow
  | .wait =>
    -- one poll: rd32 0x014; s[0] = 1 goes back to L (R76)
    if s.block.statusWord.getLsbD 0 then .next s
    else .next (s.setHost n (h.opRead s.block.statusWord))
  | .waitIrq => if s.block.irq then .next (s.setHost n h.opDone) else .next s

/-- Host n's turn. A host that does not exist, has nothing left to do, or has faulted (R62: its fault is
never cleared) makes no move. -/
def hostMove (n : Nat) (s : State) : Host.Outcome State Fault Refusal :=
  match s.hosts[n]? with
  | none => .next s
  | some h =>
    if h.faulted then .next s
    else
      match h.ops with
      | [] => .next s
      | op :: _ => performOp s n h op

/-- A host that still has a move to make. -/
def HostState.runnable (h : HostState) : Bool := !h.faulted && !h.ops.isEmpty

/-- Whose turn it is (R55): the schedule's first turn; after the schedule, a busy engine, else the first
host that has a move, else nobody (DESIGN CHOICE, log entry 3). -/
def State.nextTurn (s : State) : Option Turn :=
  match s.schedule with
  | t :: _ => some t
  | [] =>
    if s.block.busy then some .engine
    else
      match s.hosts.findIdx? HostState.runnable with
      | some n => some (.host n)
      | none => none

/-- The turn is taken off the schedule. -/
abbrev State.popTurn (s : State) : State := { s with schedule := s.schedule.tail }

/-- One line of a host script (R75); `waitIrq` is rule R76's last sentence. -/
inductive ScriptLine where
  | wr32 (off : Nat) (v : Word)
  | rd32 (off : Nat)
  | wr (k : Reg) (z : Int)
  | rd (k : Reg)
  | issue (c : AsmLine)
  | clear
  | wait
  | waitIrq
  deriving DecidableEq, Repr

/-- The writes of `wr dK, Z`, low word first (R75). -/
def expandWr (p : Params) (k : Reg) (z : Int) : List HostOp :=
  (List.range p.words).map fun j =>
    .write (p.base + (regOffset k + 4 * j)) 4 (getWord (enc p.width z) j)

/-- The reads of `rd dK`, high word first (R75). -/
def expandRd (p : Params) (k : Reg) : List HostOp :=
  (List.range p.words).reverse.map fun j => .read (p.base + (regOffset k + 4 * j)) 4

/-- The concatenation that `rd` yields, the first word read in the high bits (R75). -/
def joinWords (w : Nat) (vs : List Word) : BitVec w :=
  BitVec.ofNat w (vs.foldl (fun acc v => acc * 2 ^ 32 + v.toNat) 0)

/-- The accesses a script line expands to (R75); none where the assembler refuses the command (R71) or
Z has no W-bit pattern. -/
def expandLine (p : Params) : ScriptLine → Option (List HostOp)
  | .wr32 off v => some [.write (p.base + off) 4 v]
  | .rd32 off => some [.read (p.base + off) 4]
  | .wr k z => if -(2 ^ (p.width - 1)) ≤ z ∧ z < 2 ^ p.width then some (expandWr p k z) else none
  | .rd k => some (expandRd p k)
  | .issue c =>
    match c.assemble with
    | some v => some [.write (p.base + 0x010) 4 v]
    | none => none
  | .clear => some [.write (p.base + 0x014) 4 0x106#32]
  | .wait => some [.wait]
  | .waitIrq => some [.waitIrq]

/-- A whole script. -/
def expandScript (p : Params) : List ScriptLine → Option (List HostOp)
  | [] => some []
  | l :: ls =>
    match expandLine p l, expandScript p ls with
    | some ops, some rest => some (ops ++ rest)
    | _, _ => none

end Sys2Proof.Machine
end

