-- ==== Sys2Proof/Machine/Engine.lean ====
section
/-! DEFINITION. The engine's move and the transition of one turn (20_memory.md rules R49, R55). -/

namespace Sys2Proof.Machine

/-- The engine's turn: COMPLETE of the latched command if BUSY = 1 (R49); an idle engine has no step
(R115), so its turn passes (log entry 4). -/
def engineMove (s : State) : Host.Outcome State Fault Refusal :=
  if s.block.busy then
    match fetch s with
    | .ok i => exec i s
    | .error f => .fault f
  else .next s

/-- The transition of one turn. -/
def takeTurn (t : Turn) (s : State) : Host.Outcome State Fault Refusal :=
  match t with
  | .host n => hostMove n s
  | .engine => engineMove s
  | .hardReset => .next s.hardReset

/-- The block after a program word has been delivered to it idle, as by a write to CMD (R48); used by
`withFetchWord` (log entry 2). -/
def Block.deliver {w : Nat} (b : Block w) (v : Word) : Block w := Block.accept { b with busy := false } v

end Sys2Proof.Machine
end

