-- ==== Sys2Proof/Machine/Step.lean ====
section
/-! DEFINITION. One step: one transition of one agent (20_memory.md rule R55, 00_scope.md rule R9). -/

namespace Sys2Proof.Machine

/-- One step. When nobody has a move the machine stays as it is: the block is idle (R112, R115). -/
def step (s : State) : Host.Outcome State Fault Refusal :=
  match s.nextTurn with
  | none => .next s
  | some t => takeTurn t s.popTurn

/-- The machine with the command `w` accepted, as by a write to CMD of an idle block (R48), and the
engine's turn next, so that the next step completes it (log entry 2). -/
def State.withFetchWord (s : State) (nbits w : Nat) : State :=
  { s with
    block := s.block.deliver (tableWord nbits w)
    schedule := .engine :: s.schedule }

end Sys2Proof.Machine
end

