-- ==== Sys2Proof/Machine/HostDuties.lean ====
section
/-! DEFINITION. The host's duties of 20_memory.md rule R60, as what a host's next operation must keep, and
the ledger of a run that they need: what each host still has to wait for and to report, and which registers
hold a key in use. The block checks none of it (R60), so none of it is in State. -/

namespace Sys2Proof.Machine

/-- The duties R60 lists "for round-trip claims only" and "for key-validity claims", taken on or not. -/
structure Contract where
  /-- m < n for every EXPMOD (R60, row 1; R128). -/
  roundTrip : Bool
  /-- p and q prime for every KEYGEN (R60, row 3). -/
  keyValidity : Bool
  deriving DecidableEq, Repr

/-- What a host knows of the ending of the last command it issued (R60, row 2; 70_reset_and_hazards.md
R124). -/
inductive Report where
  /-- There is none, or the host has read STATUS since it ended. -/
  | seen
  /-- The host has not read STATUS since it ended, or it runs. -/
  | unread
  /-- The host has removed an ERRCODE 1 or 2 that it had not read: the error is ignored silently. -/
  | ignored
  deriving DecidableEq, Repr

/-- One host's entry. -/
structure HostDuty where
  /-- The command the host has issued and whose completion it has not observed (R119). -/
  awaiting : Option Instr
  report : Report
  deriving DecidableEq, Repr

/-- A host that owes nothing. -/
def HostDuty.free : HostDuty := { awaiting := none, report := .seen }

/-- A key in use (R60, row 4; 10_state.md R37): the registers that hold it, and a number that tells it
from every other key of the run, a later one in the same registers included. -/
structure Key where
  id : Nat
  regs : List Reg
  deriving DecidableEq, Repr

/-- The ledger: one entry a host, the keys in use, and the number of the next key. -/
structure Ledger where
  hosts : List HostDuty
  keys : List Key
  count : Nat
  deriving DecidableEq, Repr

/-- A key comes into use in `regs`. -/
def Ledger.addKey (l : Ledger) (regs : List Reg) : Ledger :=
  { l with keys := { id := l.count, regs := regs } :: l.keys, count := l.count + 1 }

/-- A key goes out of use: the hosts need it no longer. -/
def Ledger.retire (l : Ledger) (id : Nat) : Ledger :=
  { l with keys := l.keys.filter fun key => key.id ≠ id }

/-- The registers that hold a key in use. -/
def Ledger.keyRegs (l : Ledger) : List Reg := l.keys.flatMap Key.regs

/-- The numbers of the keys are below the next key's. -/
def Ledger.wf (l : Ledger) : Prop := ∀ key ∈ l.keys, key.id < l.count

/-- The ledger at the start of a run in which nobody owes anything and each of `keys` lists the registers
of a key in use. -/
def Ledger.start (s : State) (keys : List (List Reg)) : Ledger :=
  keys.foldl Ledger.addKey { hosts := s.hosts.map fun _ => HostDuty.free, keys := [], count := 0 }

/-- Host n's entry. -/
def Ledger.host (l : Ledger) (n : Nat) : HostDuty := l.hosts.getD n HostDuty.free

/-- The ledger with host n's entry replaced. -/
def Ledger.setHost (l : Ledger) (n : Nat) (d : HostDuty) : Ledger :=
  { l with hosts := l.hosts.set n d }

/-- STATUS holds one of the errors R60 calls fatal: ERR with ERRCODE 1 or 2. -/
def Block.fatal {w : Nat} (b : Block w) : Bool := b.err && (b.errcode = 1#4 || b.errcode = 2#4)

/-- A host that removes a fatal error it has not read ignores it. -/
def HostDuty.dropReport (d : HostDuty) (fatal : Bool) : HostDuty :=
  { d with report := if d.report = .unread ∧ fatal = true then .ignored else d.report }

/-- The host knows how its last command ended (R124). -/
def HostDuty.seeReport (d : HostDuty) : HostDuty :=
  { d with report := if d.report = .unread then .seen else d.report }

/-- The host has observed the completion of its last command (R119). -/
def HostDuty.observe (d : HostDuty) : HostDuty := { d with awaiting := none }

/-- A STATUS read with BUSY = 0: it shows how the last command ended (R124), and is an observation of the
completion only if it also shows DONE = 1 (R119). -/
def HostDuty.readStatus (d : HostDuty) (done : Bool) : HostDuty :=
  if done then d.seeReport.observe else d.seeReport

/-- A reset abandons what runs and removes every report and key (70_reset_and_hazards.md R114, R125). -/
def HostDuty.reset (d : HostDuty) : HostDuty := d.seeReport.observe

def Ledger.reset (l : Ledger) : Ledger := { l with hosts := l.hosts.map HostDuty.reset, keys := [] }

/-- A write to CMD keeps the duties: no command runs and the host has observed its last completion (R60
row 5, R120), it has read how that one ended (R60 row 2, R124), the command overwrites no key in use (R60
row 4), and it keeps the contract (R60 rows 1 and 3). -/
def issueKeepsDuty (c : Contract) (s : State) (l : Ledger) (n : Nat) (v : Word) : Prop :=
  s.block.busy = false ∧ (l.host n).awaiting = none ∧ (l.host n).report = .seen ∧
    ∀ i, decode v = .ok i → i.wellFormed = true →
      (∀ k ∈ destinations i, k ∉ l.keyRegs) ∧
        match i with
        | .gcd _ _ _ => True
        | .xgcd _ _ _ _ _ _ => True
        | .modinv _ _ _ => True
        | .keygen _ _ _ fs0 fs1 => c.keyValidity = true →
            Nat.Prime (uval (s.block.reg fs0)) ∧ Nat.Prime (uval (s.block.reg fs1))
        | .expmod _ fs0 _ fs2 => c.roundTrip = true →
            uval (s.block.reg fs0) < uval (s.block.reg fs2)

/-- A write to a word of D[k] keeps the duties: no command runs and the host has observed its last
completion (R60 row 5, R120), and D[k] holds no key in use (R60 row 4). -/
def dataWriteKeepsDuty (s : State) (l : Ledger) (n : Nat) (k : Reg) : Prop :=
  s.block.busy = false ∧ (l.host n).awaiting = none ∧ k ∉ l.keyRegs

/-- A read of a word of D[k] keeps the duties: it is no result of a running command, nor of one whose
completion the host has not observed (R60 row 5, R119). Any other read is a liberty. -/
def dataReadKeepsDuty (s : State) (l : Ledger) (n : Nat) (k : Reg) : Prop :=
  (∀ i, s.block.busy = true → decode s.block.latch.cmd = .ok i → k ∉ destinations i) ∧
    ∀ i, (l.host n).awaiting = some i → k ∉ destinations i

/-- Host n's next operation keeps its duties (R60). Accesses are aligned 32-bit ones in the window (R45,
R46, R40). Reading any register that is no result, clearing flags, soft reset and IRQ_EN are liberties. -/
def opKeepsDuty (c : Contract) (s : State) (l : Ledger) (n : Nat) : HostOp → Prop
  | .read addr size =>
    inWindow s.params addr = true ∧ badAccess (addr - s.params.base) size = false ∧
      ∀ k j, slotAt s.params.words (addr - s.params.base) = .data k j → dataReadKeepsDuty s l n k
  | .write addr size v =>
    inWindow s.params addr = true ∧ badAccess (addr - s.params.base) size = false ∧
      (slotAt s.params.words (addr - s.params.base) = .cmd → issueKeepsDuty c s l n v) ∧
      ∀ k j, slotAt s.params.words (addr - s.params.base) = .data k j → dataWriteKeepsDuty s l n k
  | .wait => True
  | .waitIrq => True

/-- The step the machine takes next keeps every host's duties. -/
def State.keepsDuty (c : Contract) (s : State) (l : Ledger) : Prop :=
  ∀ n h op ops, s.nextTurn = some (.host n) → s.hosts[n]? = some h → h.faulted = false →
    h.ops = op :: ops → opKeepsDuty c s l n op

/-- What host n's write of v to a slot leaves in the ledger. -/
def Ledger.afterWrite (l : Ledger) (s : State) (n : Nat) (t : Slot) (v : Word) : Ledger :=
  match t with
  | .cmd =>
    if s.block.busy then l
    else
      match decode v with
      | .ok i =>
        if i.wellFormed then l.setHost n { awaiting := some i, report := .unread }
        else l.setHost n { awaiting := none, report := .unread }
      | .error _ => l.setHost n { awaiting := none, report := .unread }
  | .status => if v.getLsbD 2 then l.setHost n ((l.host n).dropReport s.block.fatal) else l
  | .ctrl =>
    if v.getLsbD 1 then (l.setHost n ((l.host n).dropReport s.block.fatal)).reset else l
  | .data _ _ => l
  | .id => l
  | .cfg => l
  | .maxtry => l
  | .reserved => l

/-- What host n's move leaves in the ledger. -/
def Ledger.afterOp (l : Ledger) (s : State) (n : Nat) (op : HostOp) : Ledger :=
  match op with
  | .read addr _ =>
    if slotAt s.params.words (addr - s.params.base) = .status ∧ s.block.busy = false then
      l.setHost n ((l.host n).readStatus s.block.done)
    else l
  | .write addr _ v => l.afterWrite s n (slotAt s.params.words (addr - s.params.base)) v
  | .wait => if s.block.busy then l else l.setHost n ((l.host n).readStatus s.block.done)
  | .waitIrq => if s.block.irq then l.setHost n (l.host n).observe else l

/-- What a completion that ends without an error leaves in the ledger: the destinations of a KEYGEN hold a
key in use (42_key_generator.md R88, 10_state.md R37). -/
def Ledger.afterSuccess (l : Ledger) (i : Instr) : Ledger :=
  match i with
  | .gcd _ _ _ => l
  | .xgcd _ _ _ _ _ _ => l
  | .modinv _ _ _ => l
  | .keygen fd0 fd1 fd2 _ _ => l.addKey [fd0, fd1, fd2]
  | .expmod _ _ _ _ => l

/-- What the engine's move from `s` to `t` leaves in the ledger. -/
def Ledger.afterEngine (l : Ledger) (s t : State) : Ledger :=
  match decode s.block.latch.cmd with
  | .ok i => if s.block.busy && !t.block.err then l.afterSuccess i else l
  | .error _ => l

/-- What the step from `s` to `t` leaves in the ledger. -/
def Ledger.next (l : Ledger) (s t : State) : Ledger :=
  match s.nextTurn with
  | none => l
  | some .engine => l.afterEngine s t
  | some .hardReset => l.reset
  | some (.host n) =>
    match s.hosts[n]? with
    | none => l
    | some h =>
      if h.faulted then l
      else
        match h.ops with
        | [] => l
        | op :: _ => l.afterOp s n op

/-- Host n has ignored no fatal error of a command it issued (R60 row 2): it removed none unread, and
STATUS holds none that it has not read. A run that ends otherwise has ignored one silently. -/
def Ledger.errorsReported (l : Ledger) (s : State) (n : Nat) : Prop :=
  (l.host n).report ≠ .ignored ∧ ((l.host n).report = .unread → s.block.fatal = false)

end Sys2Proof.Machine
end

