-- ==== Sys2Proof/Safety.lean ====
section
/-! DEFINITION. What a good state, a run whose hosts keep their duties, and a finished run are. -/

namespace Sys2Proof.Machine

/-- While BUSY = 1 the latch is what acceptance took for a legal command: L.cmd is legal, CMD reads it
(R51), the operands are still the source registers' contents (R48, R52), and DONE, ERR and ERRCODE are 0
(R51). -/
def Block.busyOk {w : Nat} (b : Block w) : Prop :=
  b.busy = true →
    b.done = false ∧ b.err = false ∧ b.errcode = 0#4 ∧ b.cmdLast = b.latch.cmd ∧
      ∃ i, decode b.latch.cmd = .ok i ∧ i.wellFormed = true ∧ b.latch = b.latchFor b.latch.cmd i

/-- ERRCODE is 0 exactly when ERR = 0 (R24, R25), and 7 to 15 are never produced (R92). -/
def Block.errOk {w : Nat} (b : Block w) : Prop :=
  (b.err = false ↔ b.errcode = 0#4) ∧ b.errcode.toNat ≤ 6

/-- The invariant every step keeps. -/
def State.Inv (s : State) : Prop := s.block.busyOk ∧ s.block.errOk

/-- The transition of a model whose hosts have no move that breaks a duty (20_memory.md R60): a step that
keeps the duties, with the ledger after it. `step` itself also has the other moves, since R52, R62, R100 and
R103 say what the block does on them (log entry 12). -/
def DutifulStep (c : Contract) (s : State) (l : Ledger) (t : State) (m : Ledger) : Prop :=
  s.keepsDuty c l ∧ step s = .next t ∧ m = l.next s t

/-- A run of that model: claims that say nothing of a run in which a host breaks a duty (R60) speak of
these runs. Between two steps a key may go out of use; R60 leaves to the hosts how long one is in use. -/
inductive DutifulReaches (c : Contract) : State → Ledger → State → Ledger → Prop where
  | refl (s : State) (l : Ledger) : DutifulReaches c s l s l
  | tail {s t u : State} {l m k : Ledger} (run : DutifulReaches c s l t m)
      (last : DutifulStep c t m u k) : DutifulReaches c s l u k
  | retire {s t : State} {l m : Ledger} (run : DutifulReaches c s l t m) (id : Nat) :
      DutifulReaches c s l t (m.retire id)

/-- The run of host n's program has ended (R131): that host has performed its last listed operation, none
of its accesses was a BusError (R62), and the block is idle. What other hosts still have to do, or a fault
of theirs, is no part of it. -/
def State.ended (s : State) (n : Nat) : Prop :=
  s.block.busy = false ∧ ∃ h, s.hosts[n]? = some h ∧ h.ops = [] ∧ h.faulted = false

/-- The end of host n's run with its duties kept: R60's fatal errors have been reported too. -/
def State.endedDutifully (s : State) (l : Ledger) (n : Nat) : Prop :=
  s.ended n ∧ l.errorsReported s n

/-- What is observed at the end of a run (R131): D, STATUS, CTRL and CMD_LAST. -/
structure Observation (w : Nat) where
  d : Vector (BitVec w) 8
  status : Word
  ctrl : Word
  cmdLast : Word
  deriving DecidableEq, Repr

/-- The observation of a state (R131). -/
def State.observe (s : State) : Observation s.params.width where
  d := s.block.d
  status := s.block.statusWord
  ctrl := s.block.ctrlWord
  cmdLast := s.block.cmdLast

/-- `t` follows `s` after some number of steps, none of which stopped. -/
inductive Reaches : State → State → Prop where
  | refl (s : State) : Reaches s s
  | tail {s t u : State} (run : Reaches s t) (last : step t = .next u) : Reaches s u

end Sys2Proof.Machine
end

