-- ==== Sys2Proof/Certificates/Slice0/Obligations.lean ====
section
/-! DEFINITION. The statements for the provers. Every statement is over every State, so over every W,
MAX_E_TRIES and BASE the rules allow. A next state is written out whole wherever the rules give it whole:
what it does not name is unchanged. -/

open Sys2Proof Sys2Proof.Machine

/-! ### Encoding (30_encoding.md) -/

/-- Decoding the word of any command gives the command back, with every field at every value (R63, R66,
R71). -/
def Obligations.DecodeOfEncodeIsTheCommand : Prop :=
  ∀ i : Instr, decode (encode i) = .ok i

/-- A word that decodes is the word of the command it decodes to: one spelling per command (R63, R66). -/
def Obligations.EncodeOfDecodeIsTheWord : Prop :=
  ∀ (v : Word) (i : Instr), decode v = .ok i → encode i = v

/-- The legality predicate of R67 over the fields of the word, and R67's numbers of legal words. -/
def Obligations.LegalIsTheLegalityPredicate : Prop :=
  (∀ v : Word,
    legal v = true ↔
      v.extractLsb' 18 5 = 0#5 ∧
        ((v.extractLsb' 24 8 = 0x01#8 ∧ v.getLsbD 23 = false ∧ v.extractLsb' 3 3 = 0#3 ∧
            v.extractLsb' 6 3 = 0#3 ∧ v.extractLsb' 15 3 = 0#3) ∨
          (v.extractLsb' 24 8 = 0x02#8 ∧ v.extractLsb' 15 3 = 0#3 ∧
            v.extractLsb' 0 3 ≠ v.extractLsb' 3 3 ∧ v.extractLsb' 0 3 ≠ v.extractLsb' 6 3 ∧
            v.extractLsb' 3 3 ≠ v.extractLsb' 6 3) ∨
          (v.extractLsb' 24 8 = 0x03#8 ∧ v.getLsbD 23 = false ∧ v.extractLsb' 3 3 = 0#3 ∧
            v.extractLsb' 6 3 = 0#3 ∧ v.extractLsb' 15 3 = 0#3) ∨
          (v.extractLsb' 24 8 = 0x04#8 ∧ v.getLsbD 23 = false ∧ v.extractLsb' 15 3 = 0#3 ∧
            v.extractLsb' 0 3 ≠ v.extractLsb' 3 3 ∧ v.extractLsb' 0 3 ≠ v.extractLsb' 6 3 ∧
            v.extractLsb' 3 3 ≠ v.extractLsb' 6 3) ∨
          (v.extractLsb' 24 8 = 0x05#8 ∧ v.getLsbD 23 = false ∧ v.extractLsb' 3 3 = 0#3 ∧
            v.extractLsb' 6 3 = 0#3))) ∧
    Nat.card { v : Word // legal v = true ∧ v.extractLsb' 24 8 = 0x01#8 } = 512 ∧
    Nat.card { v : Word // legal v = true ∧ v.extractLsb' 24 8 = 0x02#8 } = 43008 ∧
    Nat.card { v : Word // legal v = true ∧ v.extractLsb' 24 8 = 0x03#8 } = 512 ∧
    Nat.card { v : Word // legal v = true ∧ v.extractLsb' 24 8 = 0x04#8 } = 21504 ∧
    Nat.card { v : Word // legal v = true ∧ v.extractLsb' 24 8 = 0x05#8 } = 4096

/-- A word has a row's shape exactly when (word & mask) = match, and then its fields are the row's; a
word of no row's opcode is illegal (R66). -/
def Obligations.RowShapesAreTheirMatchAndMask : Prop :=
  ∀ v : Word,
    (v &&& 0xFFFF81F8#32 = 0x01000000#32 ↔
      decode v = .ok (.gcd (regField 0 v) (regField 9 v) (regField 12 v))) ∧
    (v &&& 0xFF7F8000#32 = 0x02000000#32 ↔
      decode v = .ok (.xgcd (v.getLsbD 23) (regField 0 v) (regField 3 v) (regField 6 v)
        (regField 9 v) (regField 12 v))) ∧
    (v &&& 0xFFFF81F8#32 = 0x03000000#32 ↔
      decode v = .ok (.modinv (regField 0 v) (regField 9 v) (regField 12 v))) ∧
    (v &&& 0xFFFF8000#32 = 0x04000000#32 ↔
      decode v = .ok (.keygen (regField 0 v) (regField 3 v) (regField 6 v) (regField 9 v)
        (regField 12 v))) ∧
    (v &&& 0xFFFC01F8#32 = 0x05000000#32 ↔
      decode v = .ok (.expmod (regField 0 v) (regField 9 v) (regField 12 v) (regField 15 v))) ∧
    (v.extractLsb' 24 8 = 0#8 ∨ 5 < (v.extractLsb' 24 8).toNat → legal v = false)

/-- Words of R71's examples and of 95_test_vectors.md 2.6, written out, decode to their commands. -/
def Obligations.WrittenOutWordsDecode : Prop :=
  decode 0x01001002#32 = .ok (.gcd 2 0 1) ∧
    decode 0x0280111A#32 = .ok (.xgcd true 2 3 4 0 1) ∧
    decode 0x0200111A#32 = .ok (.xgcd false 2 3 4 0 1) ∧
    decode 0x03001005#32 = .ok (.modinv 5 0 1) ∧
    decode 0x0400111A#32 = .ok (.keygen 2 3 4 0 1) ∧
    decode 0x05013A06#32 = .ok (.expmod 6 5 3 2) ∧
    decode 0x05014C07#32 = .ok (.expmod 7 6 4 2)

/-- The word of a command is OPC<<24 | H<<23 | FS2<<15 | FS1<<12 | FS0<<9 | FD2<<6 | FD1<<3 | FD0 with
every field the syntax does not name 0 (R71). -/
def Obligations.CommandWordsFollowTheFormula : Prop :=
  (∀ g a b : Reg, (encode (.gcd g a b)).toNat = 1 * 2 ^ 24 + b * 2 ^ 12 + a * 2 ^ 9 + g) ∧
    (∀ (h : Bool) (g x y a b : Reg), (encode (.xgcd h g x y a b)).toNat =
      2 * 2 ^ 24 + h.toNat * 2 ^ 23 + b * 2 ^ 12 + a * 2 ^ 9 + y * 2 ^ 6 + x * 2 ^ 3 + g) ∧
    (∀ i a m : Reg, (encode (.modinv i a m)).toNat = 3 * 2 ^ 24 + m * 2 ^ 12 + a * 2 ^ 9 + i) ∧
    (∀ n e d p q : Reg, (encode (.keygen n e d p q)).toNat =
      4 * 2 ^ 24 + q * 2 ^ 12 + p * 2 ^ 9 + d * 2 ^ 6 + e * 2 ^ 3 + n) ∧
    (∀ r b e m : Reg, (encode (.expmod r b e m)).toNat =
      5 * 2 ^ 24 + m * 2 ^ 15 + e * 2 ^ 12 + b * 2 ^ 9 + r)

/-- ENCRYPT and DECRYPT assemble to the words of the EXPMOD lines they expand to (R72, R73). -/
def Obligations.EncryptAndDecryptExpandToExpmod : Prop :=
  ∀ a b c d : Reg,
    AsmLine.assemble { mnemonic := .encrypt, regs := [a, b, c, d] } =
        AsmLine.assemble { mnemonic := .expmod, regs := [a, b, c, d] } ∧
      AsmLine.assemble { mnemonic := .decrypt, regs := [a, b, c, d] } =
        AsmLine.assemble { mnemonic := .expmod, regs := [a, b, c, d] } ∧
      AsmLine.assemble { mnemonic := .expmod, regs := [a, b, c, d] } = some (encode (.expmod a b c d))

/-- The line a disassembler prints, in upper or lower case, is read back as that line, which stands for
the command; it assembles to the command's word exactly when that word is legal (R71, R74). -/
def Obligations.DisassembledTextAssemblesBack : Prop :=
  ∀ i : Instr,
    parseLine (disassemble i).print = some (disassemble i) ∧
      parseLine ((disassemble i).print.map Char.toLower) = some (disassemble i) ∧
      (disassemble i).instr = some i ∧
      (disassemble i).assemble = if i.wellFormed then some (encode i) else none

/-! ### The register window (20_memory.md, 10_state.md) -/

/-- HostRead, offset by offset (R42). -/
def Obligations.HostReadsFollowTheMap : Prop :=
  ∀ (p : Params) (b : Block p.width) (off size : Nat),
    (size ≠ 4 ∨ off % 4 ≠ 0 → b.hostRead p off size = none) ∧
    (size = 4 → off % 4 = 0 →
      (off = 0x000 → b.hostRead p off size = some 0x58474344#32) ∧
      (off = 0x004 → b.hostRead p off size = some (BitVec.ofNat 32 (p.width * 2 ^ 16 + 0x0801))) ∧
      (off = 0x008 → b.hostRead p off size = some (BitVec.ofNat 32 p.maxTries)) ∧
      (off = 0x010 → b.hostRead p off size = some b.cmdLast) ∧
      (off = 0x014 → b.hostRead p off size = some (BitVec.ofNat 32
        (b.coll.toNat * 2 ^ 8 + b.errcode.toNat * 2 ^ 4 + b.err.toNat * 2 ^ 2 + b.done.toNat * 2 +
          b.busy.toNat))) ∧
      (off = 0x018 → b.hostRead p off size = some (BitVec.ofNat 32 b.irqEn.toNat)) ∧
      (∀ (k : Reg) (j : Nat), j < p.words → off = 0x100 + 0x100 * k + 4 * j →
        b.hostRead p off size = some (BitVec.ofNat 32 (uval (b.reg k) / 2 ^ (32 * j)))) ∧
      (off ∉ [0x000, 0x004, 0x008, 0x010, 0x014, 0x018] →
        (∀ (k : Reg) (j : Nat), j < p.words → off ≠ 0x100 + 0x100 * k + 4 * j) →
        b.hostRead p off size = some 0#32))

/-- The byte at BASE + off + i of a data word is bits 8i+7 to 8i of the word, and word j of a register is
its bits 32j+31 to 32j: so byte n of a register's words is its bits 8n+7 to 8n (R44). -/
def Obligations.WindowBytesAreLittleEndian : Prop :=
  ∀ (p : Params) (b : Block p.width) (k : Reg) (n : Nat),
    n < 4 * p.words → b.windowByte p (0x100 + 0x100 * k + n) = (b.reg k).extractLsb' (8 * n) 8

/-- HostWrite to STATUS, CTRL, the constants and the reserved offsets, busy or not, and accesses that are
not aligned 32-bit writes (R32, R43). -/
def Obligations.HostWritesFollowTheMap : Prop :=
  ∀ (p : Params) (b : Block p.width) (off size : Nat) (v : Word),
    (size ≠ 4 ∨ off % 4 ≠ 0 → b.hostWrite p off size v = none) ∧
    (size = 4 → off % 4 = 0 →
      (off = 0x014 → b.hostWrite p off size v = some
        { b with
          done := if v.getLsbD 1 then false else b.done
          err := if v.getLsbD 2 then false else b.err
          errcode := if v.getLsbD 2 then 0#4 else b.errcode
          coll := if v.getLsbD 8 then false else b.coll }) ∧
      (off = 0x018 → v.getLsbD 1 = true → b.hostWrite p off size v = some (Block.reset p.width)) ∧
      (off = 0x018 → v.getLsbD 1 = false →
        b.hostWrite p off size v = some { b with irqEn := v.getLsbD 0 }) ∧
      (off ∉ [0x010, 0x014, 0x018] →
        (∀ (k : Reg) (j : Nat), j < p.words → off ≠ 0x100 + 0x100 * k + 4 * j) →
        b.hostWrite p off size v = some b))

/-- A write to a data word while idle replaces the 32 bits of that word of that register and nothing
else (R43). -/
def Obligations.IdleDataWriteReplacesOneWord : Prop :=
  ∀ (p : Params) (b : Block p.width) (k : Reg) (j : Nat) (v : Word),
    b.busy = false → j < p.words →
      ∃ x : BitVec p.width,
        (∀ n, n < p.width → x.getLsbD n =
          if 32 * j ≤ n ∧ n < 32 * j + 32 then v.getLsbD (n - 32 * j) else (b.reg k).getLsbD n) ∧
        b.hostWrite p (0x100 + 0x100 * k + 4 * j) 4 v = some { b with d := b.d.set k.val x }

/-- After an idle write to a data word, that word reads the value written and every other offset reads as
before (R17, R42, R43). -/
def Obligations.DataWordReadsBackAndOthersKeep : Prop :=
  ∀ (p : Params) (b c : Block p.width) (k : Reg) (j : Nat) (v : Word),
    b.busy = false → j < p.words → b.hostWrite p (0x100 + 0x100 * k + 4 * j) 4 v = some c →
      c.hostRead p (0x100 + 0x100 * k + 4 * j) 4 = some v ∧
        ∀ off size, off ≠ 0x100 + 0x100 * k + 4 * j → c.hostRead p off size = b.hostRead p off size

/-- Accept(v): a write to CMD while idle, of a legal and of an illegal word (R48). The operands are the
registers the word's own source fields name. -/
def Obligations.CmdWriteWhileIdleAccepts : Prop :=
  ∀ (p : Params) (b : Block p.width) (v : Word), b.busy = false →
    (legal v = false → b.hostWrite p 0x010 4 v = some
      { b with cmdLast := v, done := true, err := true, errcode := 3#4 }) ∧
    (legal v = true → b.hostWrite p 0x010 4 v = some
      { b with
        cmdLast := v
        done := false
        err := false
        errcode := 0#4
        busy := true
        latch :=
          { cmd := v
            op0 := b.reg (regField 9 v)
            op1 := b.reg (regField 12 v)
            op2 := if v.extractLsb' 24 8 = 0x05#8 then b.reg (regField 15 v) else 0#p.width } })

/-- A write to CMD or to a data word while busy is dropped and sets COLL; it completes as a bus write;
writes to STATUS and CTRL are obeyed (R52). -/
def Obligations.WritesWhileBusyAreDropped : Prop :=
  ∀ (p : Params) (b : Block p.width) (v : Word), b.busy = true →
    b.hostWrite p 0x010 4 v = some { b with coll := true } ∧
      (∀ (k : Reg) (j : Nat), j < p.words →
        b.hostWrite p (0x100 + 0x100 * k + 4 * j) 4 v = some { b with coll := true }) ∧
      b.hostWrite p 0x014 4 v = some
        { b with
          done := if v.getLsbD 1 then false else b.done
          err := if v.getLsbD 2 then false else b.err
          errcode := if v.getLsbD 2 then 0#4 else b.errcode
          coll := if v.getLsbD 8 then false else b.coll } ∧
      (v.getLsbD 1 = false → b.hostWrite p 0x018 4 v = some { b with irqEn := v.getLsbD 0 }) ∧
      (v.getLsbD 1 = true → b.hostWrite p 0x018 4 v = some (Block.reset p.width))

/-- An access that is not an aligned 32-bit one changes no state of the block and leaves its host with a
fault; the fault is never cleared, and no state a run reaches from there is a final state of that host's
program (R62). That a faulted host makes no further move, so that its whole record stays, is log entry 7
(DEDUCED), and whose turn it is after the schedule is log entry 3 (DESIGN CHOICE). -/
def Obligations.BusErrorIsAHostFaultForEver : Prop :=
  (∀ (s : State) (n : Nat) (h : HostState) (ops : List HostOp) (addr size : Nat) (op : HostOp),
    s.nextTurn = some (.host n) → s.hosts[n]? = some h → h.faulted = false → h.ops = op :: ops →
    (op = .read addr size ∨ ∃ v, op = .write addr size v) →
    s.params.base ≤ addr → addr < s.params.base + 4096 →
    (size ≠ 4 ∨ (addr - s.params.base) % 4 ≠ 0) →
      step s = .next { s with
        hosts := s.hosts.set n { h with ops := ops, faulted := true }
        schedule := s.schedule.tail }) ∧
    (∀ (s t : State) (n : Nat) (h : HostState), Reaches s t → s.hosts[n]? = some h →
      h.faulted = true → t.hosts[n]? = some h ∧ ¬ t.ended n)

/-- The model's choice (log entry 8): an access outside [BASE, BASE + 0xFFF] is no access to the block,
and the step stops. -/
def Obligations.AccessOutsideTheWindowStops : Prop :=
  ∀ (s : State) (n : Nat) (h : HostState) (ops : List HostOp) (addr size : Nat) (op : HostOp),
    s.schedule.head? = some (.host n) → s.hosts[n]? = some h → h.faulted = false → h.ops = op :: ops →
    (op = .read addr size ∨ ∃ v, op = .write addr size v) →
    (addr < s.params.base ∨ s.params.base + 4096 ≤ addr) →
      step s = .fault .outsideWindow

/-- A good read gives the host the value of R42 and has no side effect: the block is as before (R42,
R47). -/
def Obligations.ReadsHaveNoSideEffect : Prop :=
  ∀ (s : State) (n : Nat) (h : HostState) (ops : List HostOp) (addr : Nat) (v : Word),
    s.schedule.head? = some (.host n) → s.hosts[n]? = some h → h.faulted = false →
    h.ops = .read addr 4 :: ops → s.params.base ≤ addr → addr < s.params.base + 4096 →
    s.block.hostRead s.params (addr - s.params.base) 4 = some v →
      step s = .next { s with
        hosts := s.hosts.set n { h with ops := ops, reads := h.reads ++ [v] }
        schedule := s.schedule.tail }

/-! ### The commands (40 to 43) -/

/-- GCD answers the greatest common divisor of the latched operands, which always fits, in FD0, with the
success flags, and changes nothing else (R77). -/
def Obligations.GcdWritesTheGreatestCommonDivisor : Prop :=
  ∀ (s : State) (fd0 fs0 fs1 : Reg),
    exec (.gcd fd0 fs0 fs1) s = .next { s with block :=
      { s.block with
        d := s.block.d.set fd0.val
          (BitVec.ofNat s.params.width (Nat.gcd (uval s.block.latch.op0) (uval s.block.latch.op1)))
        busy := false
        done := true
        err := false
        errcode := 0#4 } } ∧
      Nat.gcd (uval s.block.latch.op0) (uval s.block.latch.op1) < 2 ^ s.params.width

/-- The recursion that fixes the Bézout triple (R78). -/
def Obligations.XgcdFollowsItsRecursion : Prop :=
  (∀ b : Nat, xgcd 0 b = (b, 0, 1)) ∧
    ∀ (a b g : Nat) (x1 y1 : Int), 0 < a → xgcd (b % a) a = (g, x1, y1) →
      xgcd a b = (g, y1 - (b / a : Nat) * x1, x1)

/-- XGCD writes the triple of R78, for every pair of operands and every hint, never RANGE, with the
success flags, and changes nothing else (R79). -/
def Obligations.XgcdWritesTheBezoutTriple : Prop :=
  ∀ (s : State) (h : Bool) (fd0 fd1 fd2 fs0 fs1 : Reg) (g : Nat) (x y : Int),
    xgcd (uval s.block.latch.op0) (uval s.block.latch.op1) = (g, x, y) →
      exec (.xgcd h fd0 fd1 fd2 fs0 fs1) s = .next { s with block :=
        { s.block with
          d := ((s.block.d.set fd0.val (BitVec.ofNat s.params.width g)).set fd1.val
            (BitVec.ofInt s.params.width x)).set fd2.val (BitVec.ofInt s.params.width y)
          busy := false
          done := true
          err := false
          errcode := 0#4 } }

/-- The registers a legal XGCD leaves satisfy Bézout's identity and hold the gcd, and the coefficients
keep to R80's range, so RANGE is never raised (R80). -/
def Obligations.XgcdResultsSatisfyBezout : Prop :=
  ∀ (s : State) (h : Bool) (fd0 fd1 fd2 fs0 fs1 : Reg),
    (Instr.xgcd h fd0 fd1 fd2 fs0 fs1).wellFormed = true →
      ∃ b : Block s.params.width,
        exec (.xgcd h fd0 fd1 fd2 fs0 fs1) s = .next { s with block := b } ∧ b.err = false ∧
          (uval s.block.latch.op0 : Int) * sval (b.reg fd1) +
            (uval s.block.latch.op1 : Int) * sval (b.reg fd2) = uval (b.reg fd0) ∧
          uval (b.reg fd0) = Nat.gcd (uval s.block.latch.op0) (uval s.block.latch.op1) ∧
          |sval (b.reg fd1)| ≤ 2 ^ (s.params.width - 1) - 1 ∧
          |sval (b.reg fd2)| ≤ 2 ^ (s.params.width - 1) - 1

/-- H never changes a result, and H = 1 is no other command's (R64). -/
def Obligations.HintNeverChangesAResult : Prop :=
  (∀ (s : State) (fd0 fd1 fd2 fs0 fs1 : Reg),
    exec (.xgcd true fd0 fd1 fd2 fs0 fs1) s = exec (.xgcd false fd0 fd1 fd2 fs0 fs1) s) ∧
    ∀ v : Word, v.getLsbD 23 = true → legal v = true → v.extractLsb' 24 8 = 0x02#8

/-- MODINV: NO_INVERSE when gcd(a, m) ≠ 1; ZERO_MODULUS when gcd(a, m) = 1 and m = 0, which is only
a = 1; else FD0 gets x mod m, in [0, m), with x from R78's triple. Nothing else changes (R81). -/
def Obligations.ModinvWritesTheInverseOrReportsWhy : Prop :=
  ∀ (s : State) (fd0 fs0 fs1 : Reg) (a m : Nat),
    uval s.block.latch.op0 = a → uval s.block.latch.op1 = m →
      (Nat.gcd a m ≠ 1 → exec (.modinv fd0 fs0 fs1) s = .next { s with block :=
        { s.block with busy := false, done := true, err := true, errcode := 1#4 } }) ∧
      (Nat.gcd a m = 1 → m = 0 → a = 1 ∧ exec (.modinv fd0 fs0 fs1) s = .next { s with block :=
        { s.block with busy := false, done := true, err := true, errcode := 4#4 } }) ∧
      (Nat.gcd a m = 1 → 0 < m →
        ∃ r : Nat, (r : Int) = (xgcd a m).2.1 % m ∧ r < m ∧
          exec (.modinv fd0 fs0 fs1) s = .next { s with block :=
            { s.block with
              d := s.block.d.set fd0.val (BitVec.ofNat s.params.width r)
              busy := false
              done := true
              err := false
              errcode := 0#4 } })

/-- What MODINV leaves in FD0 when it ends without an error is the one r of [0, m) with
a·r ≡ 1 (mod m); for m = 1 it is 0 (the spec's own inference after R81). -/
def Obligations.ModinvResultIsTheUniqueInverse : Prop :=
  ∀ (s : State) (fd0 fs0 fs1 : Reg) (a m : Nat),
    uval s.block.latch.op0 = a → uval s.block.latch.op1 = m → Nat.gcd a m = 1 → 0 < m →
      ∃ b : Block s.params.width,
        exec (.modinv fd0 fs0 fs1) s = .next { s with block := b } ∧ b.err = false ∧
          uval (b.reg fd0) < m ∧ a * uval (b.reg fd0) % m = 1 % m ∧
          ∀ r : Nat, r < m → a * r % m = 1 % m → r = uval (b.reg fd0)

/-- KEYGEN on parameters that pass its checks, with a draw list of shape (b) next in the random source,
takes exactly that list and writes n = p·q, e, its last draw, and d with e·d ≡ 1 (mod φ); nothing else
changes (R83). -/
def Obligations.KeygenWritesTheKeyOfItsDraws : Prop :=
  ∀ (s : State) (fd0 fd1 fd2 fs0 fs1 : Reg) (p q phi : Nat) (before rest : List Nat) (e : Nat),
    uval s.block.latch.op0 = p → uval s.block.latch.op1 = q →
    p ≠ q → ((p : Int) - 1) * ((q : Int) - 1) = phi → 3 ≤ phi → p * q < 2 ^ s.params.width →
    s.rng.queue = before ++ e :: rest → before.length + 1 ≤ s.params.maxTries →
    (∀ r ∈ before, 2 ≤ r ∧ r ≤ phi - 1 ∧ Nat.gcd r phi ≠ 1) →
    2 ≤ e → e ≤ phi - 1 → Nat.gcd e phi = 1 →
      ∃ d : Nat, (d : Int) = (xgcd e phi).2.1 % phi ∧ 1 ≤ d ∧ d ≤ phi - 1 ∧ e * d % phi = 1 ∧
        exec (.keygen fd0 fd1 fd2 fs0 fs1) s = .next { s with
          block :=
            { s.block with
              d := ((s.block.d.set fd0.val (BitVec.ofNat s.params.width (p * q))).set fd1.val
                (BitVec.ofNat s.params.width e)).set fd2.val (BitVec.ofNat s.params.width d)
              busy := false
              done := true
              err := false
              errcode := 0#4 }
          rng := { s.rng with queue := rest } }

/-- KEYGEN reports INVALID_KEY_PARAMS exactly when p = q or φ < 3, before anything else, without a draw
and without another change (R84, R95). -/
def Obligations.KeygenGuardsItsParameters : Prop :=
  ∀ (s : State) (fd0 fd1 fd2 fs0 fs1 : Reg) (p q : Nat),
    uval s.block.latch.op0 = p → uval s.block.latch.op1 = q →
      (p = q ∨ ((p : Int) - 1) * ((q : Int) - 1) < 3 →
        exec (.keygen fd0 fd1 fd2 fs0 fs1) s = .next { s with block :=
          { s.block with busy := false, done := true, err := true, errcode := 2#4 } }) ∧
      (¬ (p = q ∨ ((p : Int) - 1) * ((q : Int) - 1) < 3) →
        ∃ (b : Block s.params.width) (g : Rng),
          exec (.keygen fd0 fd1 fd2 fs0 fs1) s = .next { s with block := b, rng := g } ∧
            b.errcode ≠ 2#4)

/-- KEYGEN reports RANGE, without a draw and without another change, when its parameters pass the guard
and n = p·q does not fit; when n fits, RANGE is not reported (R85). -/
def Obligations.KeygenReportsRangeWhenTheModulusDoesNotFit : Prop :=
  ∀ (s : State) (fd0 fd1 fd2 fs0 fs1 : Reg) (p q : Nat),
    uval s.block.latch.op0 = p → uval s.block.latch.op1 = q →
    p ≠ q → 3 ≤ ((p : Int) - 1) * ((q : Int) - 1) →
      (2 ^ s.params.width ≤ p * q → exec (.keygen fd0 fd1 fd2 fs0 fs1) s = .next { s with block :=
        { s.block with busy := false, done := true, err := true, errcode := 5#4 } }) ∧
      (p * q < 2 ^ s.params.width →
        ∃ (b : Block s.params.width) (g : Rng),
          exec (.keygen fd0 fd1 fd2 fs0 fs1) s = .next { s with block := b, rng := g } ∧
            b.errcode ≠ 5#4)

/-- KEYGEN reports RETRY_EXHAUSTED when MAX_E_TRIES draws of [2, φ − 1] all share a factor with φ; it
takes exactly those draws and writes no register (R86 (c), R98). -/
def Obligations.KeygenReportsRetryExhausted : Prop :=
  ∀ (s : State) (fd0 fd1 fd2 fs0 fs1 : Reg) (p q phi : Nat) (draws rest : List Nat),
    uval s.block.latch.op0 = p → uval s.block.latch.op1 = q →
    p ≠ q → ((p : Int) - 1) * ((q : Int) - 1) = phi → 3 ≤ phi → p * q < 2 ^ s.params.width →
    s.rng.queue = draws ++ rest → draws.length = s.params.maxTries →
    (∀ r ∈ draws, 2 ≤ r ∧ r ≤ phi - 1 ∧ Nat.gcd r phi ≠ 1) →
      exec (.keygen fd0 fd1 fd2 fs0 fs1) s = .next { s with
        block := { s.block with busy := false, done := true, err := true, errcode := 6#4 }
        rng := { s.rng with queue := rest } }

/-- The draw lists a COMPLETE of KEYGEN takes are exactly those R86 admits: whatever the source holds,
free values included, the list taken is admitted and Compute uses that list; and every admitted list is
taken when it stands next in the source. -/
def Obligations.KeygenDrawsAreExactlyTheAdmittedLists : Prop :=
  (∀ (s : State) (fd0 fd1 fd2 fs0 fs1 : Reg),
    ∃ (draws : List Nat) (g : Rng),
      admittedDraws s.params (uval s.block.latch.op0) (uval s.block.latch.op1) draws ∧
        exec (.keygen fd0 fd1 fd2 fs0 fs1) s = .next { s with
          block := s.block.complete (keygenResult fd0 fd1 fd2 s.block.latch draws)
          rng := g }) ∧
    ∀ (p : Params) (pp qq : Nat) (draws rest : List Nat) (count : Nat),
      admittedDraws p pp qq draws →
        keygenDraws p pp qq { queue := draws ++ rest, count := count } =
          (draws, { queue := rest, count := count })

/-- Whatever is drawn, a legal KEYGEN that ends without an error leaves a key: n = p·q, 2 ≤ e ≤ φ − 1
coprime to φ, and d the one value of [0, φ) with e·d ≡ 1 (mod φ), at least 1 (R88). -/
def Obligations.KeygenSuccessIsAValidKey : Prop :=
  ∀ (s : State) (fd0 fd1 fd2 fs0 fs1 : Reg) (p q : Nat) (b : Block s.params.width) (g : Rng),
    (Instr.keygen fd0 fd1 fd2 fs0 fs1).wellFormed = true →
    uval s.block.latch.op0 = p → uval s.block.latch.op1 = q →
    exec (.keygen fd0 fd1 fd2 fs0 fs1) s = .next { s with block := b, rng := g } → b.err = false →
      uval (b.reg fd0) = p * q ∧
        ∃ phi : Nat, ((p : Int) - 1) * ((q : Int) - 1) = phi ∧ 3 ≤ phi ∧
          2 ≤ uval (b.reg fd1) ∧ uval (b.reg fd1) ≤ phi - 1 ∧ Nat.gcd (uval (b.reg fd1)) phi = 1 ∧
          1 ≤ uval (b.reg fd2) ∧ uval (b.reg fd2) ≤ phi - 1 ∧
          uval (b.reg fd1) * uval (b.reg fd2) % phi = 1 ∧
          ∀ d' : Nat, d' < phi → uval (b.reg fd1) * d' % phi = 1 → d' = uval (b.reg fd2)

/-- EXPMOD: ZERO_MODULUS when n = 0, FD0 unchanged; else FD0 gets m^e mod n with m^0 = 1. Nothing else
changes (R89). -/
def Obligations.ExpmodWritesThePowerOrReportsZeroModulus : Prop :=
  ∀ (s : State) (fd0 fs0 fs1 fs2 : Reg) (m e n : Nat),
    uval s.block.latch.op0 = m → uval s.block.latch.op1 = e → uval s.block.latch.op2 = n →
      (n = 0 → exec (.expmod fd0 fs0 fs1 fs2) s = .next { s with block :=
        { s.block with busy := false, done := true, err := true, errcode := 4#4 } }) ∧
      (n ≠ 0 → m ^ e % n < 2 ^ s.params.width ∧
        exec (.expmod fd0 fs0 fs1 fs2) s = .next { s with block :=
          { s.block with
            d := s.block.d.set fd0.val (BitVec.ofNat s.params.width (m ^ e % n))
            busy := false
            done := true
            err := false
            errcode := 0#4 } })

/-- The round trip: with the key of a successful KEYGEN on distinct primes, EXPMOD with e and then EXPMOD
with d, on any states that hold those operands, gives the message m back when m < n, and m mod n for
every m (R91). -/
def Obligations.RsaMessagesRoundTrip : Prop :=
  ∀ (s : State) (fd0 fd1 fd2 fs0 fs1 : Reg) (b : Block s.params.width) (g : Rng),
    (Instr.keygen fd0 fd1 fd2 fs0 fs1).wellFormed = true →
    Nat.Prime (uval s.block.latch.op0) → Nat.Prime (uval s.block.latch.op1) →
    uval s.block.latch.op0 ≠ uval s.block.latch.op1 →
    exec (.keygen fd0 fd1 fd2 fs0 fs1) s = .next { s with block := b, rng := g } → b.err = false →
      ∀ (s1 : State) (c i1 i2 i3 : Reg),
        uval s1.block.latch.op1 = uval (b.reg fd1) → uval s1.block.latch.op2 = uval (b.reg fd0) →
        ∃ b1 : Block s1.params.width,
          exec (.expmod c i1 i2 i3) s1 = .next { s1 with block := b1 } ∧ b1.err = false ∧
            ∀ (s2 : State) (m j1 j2 j3 : Reg), uval s2.block.latch.op0 = uval (b1.reg c) →
              uval s2.block.latch.op1 = uval (b.reg fd2) →
              uval s2.block.latch.op2 = uval (b.reg fd0) →
              ∃ b2 : Block s2.params.width,
                exec (.expmod m j1 j2 j3) s2 = .next { s2 with block := b2 } ∧ b2.err = false ∧
                  (uval s1.block.latch.op0 < uval (b.reg fd0) →
                    uval (b2.reg m) = uval s1.block.latch.op0) ∧
                  uval (b2.reg m) = uval s1.block.latch.op0 % uval (b.reg fd0)

/-- What every command leaves unchanged, and that every command ends: from any state COMPLETE answers a
next state with BUSY = 0 and DONE = 1; COLL, IRQ_EN, CMD_LAST and L are kept; on an error no data register
changes, else none but the command's destinations; only KEYGEN takes draws; and every byte of the window
outside STATUS and outside the destination registers reads as before (R49, R50, R106). -/
def Obligations.EveryCommandEndsAndKeepsItsFrame : Prop :=
  ∀ (i : Instr) (s : State),
    ∃ (b : Block s.params.width) (g : Rng),
      exec i s = .next { s with block := b, rng := g } ∧
        b.busy = false ∧ b.done = true ∧
        b.coll = s.block.coll ∧ b.irqEn = s.block.irqEn ∧ b.cmdLast = s.block.cmdLast ∧
        b.latch = s.block.latch ∧
        (b.err = true → b.d = s.block.d) ∧
        (∀ k, k ∉ destinations i → b.reg k = s.block.reg k) ∧
        (g ≠ s.rng → ∃ fd0 fd1 fd2 fs0 fs1, i = .keygen fd0 fd1 fd2 fs0 fs1) ∧
        ∀ off, off < 4096 → off / 4 ≠ 0x014 / 4 →
          (∀ k ∈ destinations i, off / 0x100 ≠ k.val + 1) →
          b.windowByte s.params off = s.block.windowByte s.params off

/-- The error codes each command can end with, and ERR = 1 exactly when the code is not 0 (R92,
R102). -/
def Obligations.CommandsReportOnlyTheirErrorCodes : Prop :=
  ∀ (i : Instr) (s : State) (b : Block s.params.width) (g : Rng),
    exec i s = .next { s with block := b, rng := g } →
      (b.err = true ↔ b.errcode ≠ 0#4) ∧
        match i with
        | .gcd _ _ _ => b.errcode = 0#4
        | .xgcd _ _ _ _ _ _ => b.errcode = 0#4
        | .modinv _ _ _ => b.errcode = 0#4 ∨ b.errcode = 1#4 ∨ b.errcode = 4#4
        | .keygen _ _ _ _ _ => b.errcode = 0#4 ∨ b.errcode = 2#4 ∨ b.errcode = 5#4 ∨ b.errcode = 6#4
        | .expmod _ _ _ _ => b.errcode = 0#4 ∨ b.errcode = 4#4

/-! ### Steps -/

/-- A step of the engine completes the latched command: when it is the engine's turn, BUSY = 1 and L.cmd
decodes to a well-formed command, the step is that command's meaning, on the state with the turn taken
off the schedule (R49). -/
def Obligations.StepCompletesTheLatchedCommand : Prop :=
  ∀ (s : State) (i : Instr), s.nextTurn = some .engine → s.block.busy = true →
    decode s.block.latch.cmd = .ok i → i.wellFormed = true →
      step s = exec i { s with schedule := s.schedule.tail }

/-- A command placed by withFetchWord is what the next step runs, on the operands its source registers
hold (log entry 2). -/
def Obligations.FetchedWordRunsNext : Prop :=
  ∀ (s : State) (i : Instr), i.wellFormed = true →
    step (s.withFetchWord 32 (encode i).toNat) = exec i { s with block :=
      { s.block with
        cmdLast := encode i
        done := false
        err := false
        errcode := 0#4
        busy := true
        latch := s.block.latchFor (encode i) i } }

/-- A host's write of a legal command to an idle block, and then the engine's turn: two steps, of which
the second is the command's meaning on the registers' contents at acceptance (R48, R49). -/
def Obligations.IssueThenCompleteRunsTheCommand : Prop :=
  ∀ (s : State) (n : Nat) (h : HostState) (ops : List HostOp) (sch : List Turn) (v : Word) (i : Instr),
    s.schedule = .host n :: .engine :: sch → s.hosts[n]? = some h → h.faulted = false →
    h.ops = .write (s.params.base + 0x010) 4 v :: ops → s.block.busy = false →
    decode v = .ok i → i.wellFormed = true →
      ∃ t, step s = .next t ∧ step t = exec i
        { s with
          block :=
            { s.block with
              cmdLast := v
              done := false
              err := false
              errcode := 0#4
              busy := true
              latch := s.block.latchFor v i }
          hosts := s.hosts.set n { h with ops := ops }
          schedule := sch }

/-- The invariant of Safety.lean is kept by every step from every state that meets it: while BUSY = 1,
L holds a legal command, CMD reads it, the operands are the source registers' contents, DONE = ERR = 0 and
ERRCODE = 0; ERRCODE = 0 exactly when ERR = 0; and ERRCODE is at most 6 (R22 to R25, R33, R51, R92). -/
def Obligations.EveryStepKeepsTheInvariant : Prop :=
  ∀ s t : State, s.Inv → step s = .next t → t.Inv

/-- The reset state meets the invariant, for every choice of the parameters. -/
def Obligations.ResetMeetsTheInvariant : Prop :=
  (∀ p : Params, (State.resetWith p).Inv) ∧ State.reset.Inv

/-- From a state that meets the invariant a step never ends in a refusal, and its only fault is an access
outside the window: the engine can always finish a running command. -/
def Obligations.GoodStatesNeverStopOnACommand : Prop :=
  ∀ s : State, s.Inv → (∃ t, step s = .next t) ∨ step s = .fault .outsideWindow

/-- No step changes W, MAX_E_TRIES or BASE, so ID, CFG and MAXTRY read as before (R27, R28, R117). -/
def Obligations.NoStepChangesTheParameters : Prop :=
  ∀ s t : State, step s = .next t →
    t.params = s.params ∧
      ∀ off, off = 0x000 ∨ off = 0x004 ∨ off = 0x008 →
        t.block.hostRead t.params off 4 = s.block.hostRead s.params off 4

/-- What reset leaves, for every W, and that a hardware reset, a soft reset and the reset state agree on
it (R113, R114). That a hardware reset leaves the random source as it is is log entry 5 (DESIGN CHOICE, R116
leaves it unspecified), and that it leaves the hosts as they are log entry 11 (DEDUCED). -/
def Obligations.ResetLeavesTheResetValues : Prop :=
  (∀ w : Nat, (∀ k, (Block.reset w).reg k = 0#w) ∧ (Block.reset w).busy = false ∧
    (Block.reset w).done = false ∧ (Block.reset w).err = false ∧ (Block.reset w).errcode = 0#4 ∧
    (Block.reset w).coll = false ∧ (Block.reset w).irqEn = false ∧ (Block.reset w).cmdLast = 0#32 ∧
    (Block.reset w).latch = { cmd := 0#32, op0 := 0#w, op1 := 0#w, op2 := 0#w }) ∧
    (∀ p : Params, (State.resetWith p).block = Block.reset p.width) ∧
    (∀ s : State, s.schedule.head? = some .hardReset →
      step s = .next { s with block := Block.reset s.params.width, schedule := s.schedule.tail }) ∧
    ∀ (p : Params) (b : Block p.width) (v : Word), v.getLsbD 1 = true →
      b.hostWrite p 0x018 4 v = some (Block.reset p.width)

/-- A soft reset and a COMPLETE in either order end in the same block, the reset values (R103). -/
def Obligations.SoftResetRacesCompleteEitherWay : Prop :=
  ∀ (s : State) (n : Nat) (h : HostState) (ops : List HostOp) (sch : List Turn) (v : Word),
    s.Inv → s.block.busy = true → s.hosts[n]? = some h → h.faulted = false →
    h.ops = .write (s.params.base + 0x018) 4 v :: ops → v.getLsbD 1 = true →
      (∃ t g, step { s with schedule := .host n :: .engine :: sch } = .next t ∧
        step t = .next { s with
          block := Block.reset s.params.width
          rng := g
          hosts := s.hosts.set n { h with ops := ops }
          schedule := sch }) ∧
      (∃ t g, step { s with schedule := .engine :: .host n :: sch } = .next t ∧
        step t = .next { s with
          block := Block.reset s.params.width
          rng := g
          hosts := s.hosts.set n { h with ops := ops }
          schedule := sch })

/-- A CMD write racing a COMPLETE (R103): before it the write is dropped and sets COLL, and the running
command's word stays; after it the write is accepted and CMD reads the new word. -/
def Obligations.CmdWriteRacesComplete : Prop :=
  ∀ (s : State) (n : Nat) (h : HostState) (ops : List HostOp) (sch : List Turn) (v : Word),
    s.Inv → s.block.busy = true → s.hosts[n]? = some h → h.faulted = false →
    h.ops = .write (s.params.base + 0x010) 4 v :: ops →
      (∃ t b g, step { s with schedule := .host n :: .engine :: sch } = .next t ∧
        step t = .next { s with
          block := b, rng := g, hosts := s.hosts.set n { h with ops := ops }, schedule := sch } ∧
        b.coll = true ∧ b.cmdLast = s.block.cmdLast ∧ b.busy = false ∧ b.done = true) ∧
      (∃ t b g, step { s with schedule := .engine :: .host n :: sch } = .next t ∧
        step t = .next { s with
          block := b, rng := g, hosts := s.hosts.set n { h with ops := ops }, schedule := sch } ∧
        b.coll = s.block.coll ∧ b.cmdLast = v ∧ b.busy = legal v)

/-- A data-word write racing a COMPLETE (R103), where c is the block after the COMPLETE alone: before it
the write is dropped with COLL, and the rest is c; after it the word is written over c, so a host's value
for a destination lands after the result. -/
def Obligations.DataWriteRacesComplete : Prop :=
  ∀ (s : State) (n : Nat) (h : HostState) (ops : List HostOp) (sch : List Turn) (k : Reg) (j : Nat)
    (v : Word),
    s.Inv → s.block.busy = true → s.hosts[n]? = some h → h.faulted = false → j < s.params.words →
    h.ops = .write (s.params.base + (0x100 + 0x100 * k + 4 * j)) 4 v :: ops →
      ∃ (c : Block s.params.width) (g : Rng),
        step { s with schedule := .engine :: sch } = .next
          { s with block := c, rng := g, schedule := sch } ∧
        (∃ t, step { s with schedule := .host n :: .engine :: sch } = .next t ∧
          step t = .next { s with
            block := { c with coll := true }
            rng := g
            hosts := s.hosts.set n { h with ops := ops }
            schedule := sch }) ∧
        ∃ (t : State) (x : BitVec s.params.width),
          step { s with schedule := .engine :: .host n :: sch } = .next t ∧
          (∀ m, m < s.params.width → x.getLsbD m =
            if 32 * j ≤ m ∧ m < 32 * j + 32 then v.getLsbD (m - 32 * j) else (c.reg k).getLsbD m) ∧
          step t = .next { s with
            block := { c with d := c.d.set k.val x }
            rng := g
            hosts := s.hosts.set n { h with ops := ops }
            schedule := sch }

/-- A W1C of DONE racing a COMPLETE (R103), where c is the block after the COMPLETE alone: before it only
COLL can be cleared and the COMPLETE then sets DONE; after it DONE is cleared and irq is 0. -/
def Obligations.DoneClearRacesComplete : Prop :=
  ∀ (s : State) (n : Nat) (h : HostState) (ops : List HostOp) (sch : List Turn) (v : Word),
    s.Inv → s.block.busy = true → s.hosts[n]? = some h → h.faulted = false →
    h.ops = .write (s.params.base + 0x014) 4 v :: ops → v.getLsbD 1 = true →
      ∃ (c : Block s.params.width) (g : Rng),
        step { s with schedule := .engine :: sch } = .next
          { s with block := c, rng := g, schedule := sch } ∧ c.done = true ∧
        (∃ t, step { s with schedule := .host n :: .engine :: sch } = .next t ∧
          step t = .next { s with
            block := { c with coll := if v.getLsbD 8 then false else c.coll }
            rng := g
            hosts := s.hosts.set n { h with ops := ops }
            schedule := sch }) ∧
        ∃ (t : State) (b : Block s.params.width),
          step { s with schedule := .engine :: .host n :: sch } = .next t ∧
          step t = .next { s with
            block := b
            rng := g
            hosts := s.hosts.set n { h with ops := ops }
            schedule := sch } ∧
          b.done = false ∧ b.irq = false ∧ b.d = c.d

/-- The interrupt (R36, R104, R105): irq = IRQ_EN ∧ DONE; after every completion and after an illegal
command it is IRQ_EN; the acceptance of a legal command, a write of 1 to STATUS bit 1 and a reset end it;
setting IRQ_EN gives DONE, clearing it masks. -/
def Obligations.IrqIsEnabledCompletion : Prop :=
  (∀ (i : Instr) (s : State) (b : Block s.params.width) (g : Rng),
    exec i s = .next { s with block := b, rng := g } → b.irq = s.block.irqEn) ∧
    ∀ (p : Params) (b : Block p.width) (v : Word),
      b.irq = (b.irqEn && b.done) ∧
      (b.busy = false → ∃ c, b.hostWrite p 0x010 4 v = some c ∧
        c.irq = (b.irqEn && !legal v)) ∧
      (v.getLsbD 1 = true → ∃ c, b.hostWrite p 0x014 4 v = some c ∧ c.irq = false) ∧
      (v.getLsbD 1 = true → ∃ c, b.hostWrite p 0x018 4 v = some c ∧ c.irq = false) ∧
      (v.getLsbD 1 = false → ∃ c, b.hostWrite p 0x018 4 v = some c ∧
        c.irq = (v.getLsbD 0 && b.done))

/-- Who writes a data register (R18): a step that changes D[k] is a reset, a host's write to a word of
D[k] while BUSY = 0, or a completion without error of a running command that names D[k] as a
destination. -/
def Obligations.DataRegistersChangeOnlyAsTheRulesSay : Prop :=
  ∀ (s : State) (b : Block s.params.width) (g : Rng) (hs : List HostState) (sch : List Turn) (k : Reg),
    step s = .next { s with block := b, rng := g, hosts := hs, schedule := sch } →
    b.reg k ≠ s.block.reg k →
      b = Block.reset s.params.width ∨
      (s.block.busy = false ∧ ∃ (n : Nat) (h : HostState) (j : Nat) (v : Word) (ops : List HostOp),
        s.nextTurn = some (.host n) ∧ s.hosts[n]? = some h ∧ j < s.params.words ∧
          h.ops = .write (s.params.base + (0x100 + 0x100 * k + 4 * j)) 4 v :: ops) ∨
      (s.block.busy = true ∧ s.nextTurn = some .engine ∧ b.err = false ∧
        ∃ i, decode s.block.latch.cmd = .ok i ∧ k ∈ destinations i)

/-- BUSY is set only by a host's write of a legal command to CMD while idle, and cleared only by the
completion or by a reset (R22). -/
def Obligations.BusyFollowsAcceptanceAndCompletion : Prop :=
  ∀ (s : State) (b : Block s.params.width) (g : Rng) (hs : List HostState) (sch : List Turn),
    step s = .next { s with block := b, rng := g, hosts := hs, schedule := sch } →
      (s.block.busy = false → b.busy = true →
        ∃ (n : Nat) (h : HostState) (v : Word) (ops : List HostOp),
          s.nextTurn = some (.host n) ∧ s.hosts[n]? = some h ∧
            h.ops = .write (s.params.base + 0x010) 4 v :: ops ∧ legal v = true) ∧
      (s.block.busy = true → b.busy = false →
        s.nextTurn = some .engine ∨ b = Block.reset s.params.width)

/-- COLL is sticky (R26): it is set only by a host's write to CMD or a data word while BUSY = 1, and
cleared only by a host's write of 1 to STATUS bit 8 or by a reset. -/
def Obligations.CollIsSticky : Prop :=
  ∀ (s : State) (b : Block s.params.width) (g : Rng) (hs : List HostState) (sch : List Turn),
    step s = .next { s with block := b, rng := g, hosts := hs, schedule := sch } →
      (s.block.coll = false → b.coll = true →
        s.block.busy = true ∧ ∃ (n : Nat) (h : HostState) (off : Nat) (v : Word) (ops : List HostOp),
          s.nextTurn = some (.host n) ∧ s.hosts[n]? = some h ∧
            h.ops = .write (s.params.base + off) 4 v :: ops ∧
            (off = 0x010 ∨ ∃ (k : Reg) (j : Nat), j < s.params.words ∧
              off = 0x100 + 0x100 * k + 4 * j)) ∧
      (s.block.coll = true → b.coll = false →
        b = Block.reset s.params.width ∨
          ∃ (n : Nat) (h : HostState) (v : Word) (ops : List HostOp),
            s.nextTurn = some (.host n) ∧ s.hosts[n]? = some h ∧
              h.ops = .write (s.params.base + 0x014) 4 v :: ops ∧ v.getLsbD 8 = true)

/-- A running command is isolated (R33, R52, R59): a step that is not the engine's either resets the
block or leaves the latch, CMD_LAST, BUSY and every data register as they are. -/
def Obligations.RunningCommandIsIsolated : Prop :=
  ∀ (s : State) (b : Block s.params.width) (g : Rng) (hs : List HostState) (sch : List Turn),
    s.block.busy = true → s.nextTurn ≠ some .engine →
    step s = .next { s with block := b, rng := g, hosts := hs, schedule := sch } →
      b = Block.reset s.params.width ∨
        (b.busy = true ∧ b.latch = s.block.latch ∧ b.cmdLast = s.block.cmdLast ∧ b.d = s.block.d)

/-- The block cannot tell hosts apart (R110): one operation performed by host n or by host m has the same
effect on the block. -/
def Obligations.HostsAreIndistinguishable : Prop :=
  ∀ (s : State) (n m : Nat) (hn hm : HostState) (op : HostOp) (opsn opsm : List HostOp)
    (b : Block s.params.width) (hs : List HostState),
    s.hosts[n]? = some hn → hn.faulted = false → hn.ops = op :: opsn →
    s.hosts[m]? = some hm → hm.faulted = false → hm.ops = op :: opsm →
    hostMove n s = .next { s with block := b, hosts := hs } →
      ∃ hs' : List HostState, hostMove m s = .next { s with block := b, hosts := hs' }

/-- A step in which the hosts keep their duties never sets COLL, never gives a host a fault and never
stops outside the window (R60, R120; that staying in the window is asked of a host is log entry 8). -/
def Obligations.DutifulStepsNeverCollide : Prop :=
  ∀ (c : Contract) (s : State) (l : Ledger), s.Inv → s.keepsDuty c l →
    ∃ (b : Block s.params.width) (g : Rng) (hs : List HostState) (sch : List Turn),
      step s = .next { s with block := b, rng := g, hosts := hs, schedule := sch } ∧
        (b.coll = true → s.block.coll = true) ∧
        ∀ (n : Nat) (h : HostState), hs[n]? = some h → h.faulted = true →
          ∃ h', s.hosts[n]? = some h' ∧ h'.faulted = true

/-! ### Host scripts and the end of a run -/

/-- `wr dK, Z` on an idle block with one host and no turn scheduled, so that the host moves at every step
(log entry 3, DESIGN CHOICE): W/32 steps write all of D[K] with the pattern of Z, and change nothing else
(R75). -/
def Obligations.WrLineWritesTheWholeRegister : Prop :=
  ∀ (s : State) (h : HostState) (k : Reg) (z : Int) (ops rest : List HostOp),
    s.schedule = [] → s.hosts = [h] → h.faulted = false → s.block.busy = false →
    expandLine s.params (.wr k z) = some ops → h.ops = ops ++ rest →
      Host.Core.run Sys2Proof.core s.params.words s = .next
        ({ s with
          block := { s.block with d := s.block.d.set k.val (BitVec.ofInt s.params.width z) }
          hosts := [{ h with ops := rest }] } : State)

/-- `rd dK` on an idle block with one host and no turn scheduled, so that the host moves at every step (log
entry 3, DESIGN CHOICE): W/32 steps read words whose concatenation is D[K], and change nothing else (R75). -/
def Obligations.RdLineReadsTheWholeRegister : Prop :=
  ∀ (s : State) (h : HostState) (k : Reg) (ops rest : List HostOp),
    s.schedule = [] → s.hosts = [h] → h.faulted = false → s.block.busy = false →
    expandLine s.params (.rd k) = some ops → h.ops = ops ++ rest →
      ∃ vs : List Word, joinWords s.params.width vs = s.block.reg k ∧
        Host.Core.run Sys2Proof.core s.params.words s = .next
          ({ s with hosts := [{ h with ops := rest, reads := h.reads ++ vs }] } : State)

/-- A `wait` ends when the engine runs (R76, R129): with no turn scheduled, a busy block completes, and the
next poll sees BUSY = 0, DONE = 1 and falls through. That a busy engine moves first, and then the first host
with a move, is the model's choice (log entry 3, DESIGN CHOICE; log entry 17). -/
def Obligations.WaitEndsAfterTheCompletion : Prop :=
  ∀ (s : State) (h : HostState) (hs : List HostState) (ops : List HostOp),
    s.Inv → s.schedule = [] → s.block.busy = true → s.hosts = h :: hs → h.faulted = false →
    h.ops = .wait :: ops →
      ∃ (b : Block s.params.width) (g : Rng) (v : Word),
        Host.Core.run Sys2Proof.core 2 s = .next
          ({ s with
            block := b
            rng := g
            hosts := ({ h with ops := ops, reads := h.reads ++ [v] } : HostState) :: hs } : State) ∧
          b.busy = false ∧ v.getLsbD 0 = false ∧ v.getLsbD 1 = true

/-- While BUSY = 1 a poll goes back to its loop, and with BUSY = 0 it falls through (R76). That a poll which
sees BUSY = 1 leaves no value in the host's reads is log entry 13 (DESIGN CHOICE: R76 does not say which
values are kept). -/
def Obligations.WaitPollsWhileBusy : Prop :=
  ∀ (s : State) (n : Nat) (h : HostState) (ops : List HostOp) (sch : List Turn),
    s.schedule = .host n :: sch → s.hosts[n]? = some h → h.faulted = false → h.ops = .wait :: ops →
      (s.block.busy = true → step s = .next { s with schedule := sch }) ∧
      (s.block.busy = false → ∃ v, s.block.hostRead s.params 0x014 4 = some v ∧
        step s = .next { s with
          hosts := s.hosts.set n { h with ops := ops, reads := h.reads ++ [v] }
          schedule := sch })

/-- The end of host n's run (R131): BUSY reads 0 and what is observed is D, STATUS, CTRL and CMD_LAST; no
step, of another host or of the engine, changes host n's record; and when no host has a move left and no turn
is scheduled the step leaves the whole state as it is (that nobody moves then is log entries 3, DESIGN CHOICE,
and 4, DEDUCED). -/
def Obligations.EndedRunsStayAsTheyAre : Prop :=
  ∀ (s : State) (n : Nat), s.ended n →
    s.block.statusWord.getLsbD 0 = false ∧
      s.observe =
        { d := s.block.d
          status := s.block.statusWord
          ctrl := s.block.ctrlWord
          cmdLast := s.block.cmdLast } ∧
      (∀ t, step s = .next t → t.hosts[n]? = s.hosts[n]?) ∧
      (s.schedule = [] → (∀ h ∈ s.hosts, h.ops = [] ∨ h.faulted = true) → step s = .next s)

/-! ### Dutiful runs -/

/-- A key in use is kept (R60, "Keep the key registers unchanged while the key is in use"). The key a KEYGEN
leaves is in use from its completion on (R37, R88). In a run whose hosts keep their duties, from a good state
whose running command, if any, writes no key register, whatever key is in use at two moments, a key made in
the run included, its registers hold at the later one what they held at the earlier one. (A reset ends the
use of every key, R125.) The ledger that carries the duties is log entry 20. -/
def Obligations.DutifulRunsKeepTheKey : Prop :=
  (∀ (c : Contract) (s t : State) (l m : Ledger) (fd0 fd1 fd2 fs0 fs1 : Reg),
    DutifulStep c s l t m → s.nextTurn = some .engine → s.block.busy = true →
    decode s.block.latch.cmd = .ok (.keygen fd0 fd1 fd2 fs0 fs1) → t.block.err = false →
      ∃ key ∈ m.keys, key.regs = [fd0, fd1, fd2]) ∧
    ∀ (c : Contract) (s t u : State) (l m k : Ledger),
      s.Inv → l.wf →
      (∀ i, s.block.busy = true → decode s.block.latch.cmd = .ok i →
        ∀ r ∈ destinations i, r ∉ l.keyRegs) →
      DutifulReaches c s l t m → DutifulReaches c t m u k →
        ∀ key ∈ m.keys, key ∈ k.keys → ∀ r ∈ key.regs,
          uval (u.block.reg r) = uval (t.block.reg r)
end

