-- ==== Sys2Proof/Laws/Arith.lean ====
section
/-! SUPPORT. What the arithmetic of the commands computes: the recursion equations of rules R77 and R78,
the bounds on the number of calls, and the square-and-multiply loop of rule R90. -/

namespace Sys2Proof.Machine

/-- The falling argument of Euclid's algorithm halves at least every second step. -/
theorem mod_mod_lt_half {a b k : Nat} (ha : a ≠ 0) (hb : a < 2 ^ (k + 1)) (hm : b % a ≠ 0) :
    a % (b % a) < 2 ^ k := by
  have h1 : b % a < a := Nat.mod_lt _ (by omega)
  have h2 : a % (b % a) < b % a := Nat.mod_lt _ (by omega)
  have h3 : a = b % a * (a / (b % a)) + a % (b % a) := (Nat.div_add_mod a (b % a)).symm
  have h4 : 1 ≤ a / (b % a) := (Nat.one_le_div_iff (by omega)).2 h1.le
  have h5 : b % a ≤ b % a * (a / (b % a)) := Nat.le_mul_of_pos_right _ h4
  have h6 : 2 ^ (k + 1) = 2 * 2 ^ k := by rw [pow_succ]; ring
  omega

theorem stdGcdFuel_eq_gcd (k : Nat) :
    ∀ f a b, b < 2 ^ k → 2 * k + 1 ≤ f → stdGcdFuel f a b = Nat.gcd a b := by
  induction k with
  | zero =>
    intro f a b hb hf
    obtain ⟨f, rfl⟩ : ∃ g, f = g + 1 := ⟨f - 1, by omega⟩
    have : b = 0 := by simpa using hb
    simp [stdGcdFuel, this]
  | succ k ih =>
    intro f a b hb hf
    obtain ⟨f, rfl⟩ : ∃ g, f = g + 2 := ⟨f - 2, by omega⟩
    by_cases h0 : b = 0
    · simp [stdGcdFuel, h0]
    by_cases h1 : a % b = 0
    · have : Nat.gcd a b = b := Nat.gcd_eq_right (Nat.dvd_of_mod_eq_zero h1)
      simp [stdGcdFuel, h0, h1, this]
    rw [stdGcdFuel, if_neg h0, stdGcdFuel, if_neg h1,
      ih f _ _ (mod_mod_lt_half h0 hb h1) (by omega)]
    rw [Nat.gcd_comm, ← Nat.gcd_rec, ← Nat.gcd_rec, Nat.gcd_comm]

/-- `gcd` of rule R77 is the greatest common divisor. -/
theorem stdGcd_eq_gcd (a b : Nat) : stdGcd a b = Nat.gcd a b :=
  stdGcdFuel_eq_gcd (b.log2 + 1) _ a b (Nat.lt_log2_self) (by simp only [euclidFuel]; omega)

theorem xgcdFuel_stable (k : Nat) :
    ∀ f g a b, a < 2 ^ k → 2 * k + 1 ≤ f → 2 * k + 1 ≤ g → xgcdFuel f a b = xgcdFuel g a b := by
  induction k with
  | zero =>
    intro f g a b ha hf hg
    obtain ⟨f, rfl⟩ : ∃ n, f = n + 1 := ⟨f - 1, by omega⟩
    obtain ⟨g, rfl⟩ : ∃ n, g = n + 1 := ⟨g - 1, by omega⟩
    have : a = 0 := by simpa using ha
    simp [xgcdFuel, this]
  | succ k ih =>
    intro f g a b ha hf hg
    obtain ⟨f, rfl⟩ : ∃ n, f = n + 2 := ⟨f - 2, by omega⟩
    obtain ⟨g, rfl⟩ : ∃ n, g = n + 2 := ⟨g - 2, by omega⟩
    by_cases h0 : a = 0
    · simp [xgcdFuel, h0]
    by_cases h1 : b % a = 0
    · simp [xgcdFuel, h0, h1]
    simp only [xgcdFuel, if_neg h0, if_neg h1,
      ih f g _ _ (mod_mod_lt_half h0 ha h1) (by omega) (by omega)]

theorem xgcdFuel_eq_xgcd {f a b : Nat} (h : euclidFuel a ≤ f) : xgcdFuel f a b = xgcd a b := by
  simp only [euclidFuel] at h
  exact xgcdFuel_stable (a.log2 + 1) _ _ a b Nat.lt_log2_self (by omega)
    (by simp only [euclidFuel]; omega)

/-- The base case of rule R78. -/
theorem xgcd_zero (b : Nat) : xgcd 0 b = (b, 0, 1) := by
  simp [xgcd, euclidFuel, xgcdFuel]

/-- The recursive case of rule R78. -/
theorem xgcd_pos {a : Nat} (b : Nat) (h : a ≠ 0) :
    xgcd a b = ((xgcd (b % a) a).1,
      (xgcd (b % a) a).2.2 - (b / a : Nat) * (xgcd (b % a) a).2.1, (xgcd (b % a) a).2.1) := by
  have hlt : b % a < a := Nat.mod_lt _ (by omega)
  have hlog : (b % a).log2 ≤ a.log2 := by
    by_cases h0 : b % a = 0
    · simp [h0]
    · exact (Nat.le_log2 (by omega)).2 ((Nat.log2_self_le h0).trans hlt.le)
  have hsucc : euclidFuel a + 1 = (2 * a.log2 + 3) + 1 := rfl
  rw [← xgcdFuel_eq_xgcd (f := euclidFuel a + 1) (by omega), hsucc, xgcdFuel, if_neg h,
    xgcdFuel_eq_xgcd (by simp only [euclidFuel]; omega)]

/-- Induction along the recursion of rule R78. -/
theorem euclid_induction {P : Nat → Nat → Prop} (zero : ∀ b, P 0 b)
    (step : ∀ a b, a ≠ 0 → P (b % a) a → P a b) : ∀ a b, P a b := by
  intro a
  induction a using Nat.strong_induction_on with
  | _ a ih =>
    intro b
    by_cases h : a = 0
    · exact h ▸ zero b
    · exact step a b h (ih _ (Nat.mod_lt _ (by omega)) a)

/-- The first component of `xgcd` is the greatest common divisor. -/
theorem xgcd_gcd (a b : Nat) : (xgcd a b).1 = Nat.gcd a b := by
  induction a, b using euclid_induction with
  | zero b => simp [xgcd_zero]
  | step a b h ih => rw [xgcd_pos b h, ih, ← Nat.gcd_rec]

/-- Bézout's identity for `xgcd`. -/
theorem xgcd_bezout (a b : Nat) : (a : Int) * (xgcd a b).2.1 + b * (xgcd a b).2.2 = (xgcd a b).1 := by
  induction a, b using euclid_induction with
  | zero b => simp [xgcd_zero]
  | step a b h ih =>
    have hm : ((b % a : Nat) : Int) = b - a * (b / a : Nat) := by
      have := Nat.div_add_mod b a
      zify at this ⊢
      linarith
    rw [xgcd_pos b h]
    simp only
    rw [hm] at ih
    linear_combination ih

/-- A first argument that divides the second ends the recursion at once. -/
theorem xgcd_of_dvd {a b : Nat} (h : a ≠ 0) (hd : a ∣ b) : xgcd a b = (a, 1, 0) := by
  rw [xgcd_pos b h, Nat.mod_eq_zero_of_dvd hd, xgcd_zero]
  simp

/-- The bound of rule R80 on the coefficients, both sides multiplied by 2g. -/
theorem xgcd_bound (a b : Nat) :
    2 * ((xgcd a b).1 : Int) * |(xgcd a b).2.1| ≤ max (2 * (xgcd a b).1 : Int) b ∧
      2 * ((xgcd a b).1 : Int) * |(xgcd a b).2.2| ≤ max (2 * (xgcd a b).1 : Int) a := by
  induction a, b using euclid_induction with
  | zero b => simp [xgcd_zero]
  | step a b h ih =>
    refine ⟨?_, by rw [xgcd_pos b h]; exact ih.1⟩
    by_cases hr : b % a = 0
    · rw [xgcd_of_dvd h (Nat.dvd_of_mod_eq_zero hr)]; simp
    have hg : (xgcd (b % a) a).1 = Nat.gcd a b := by rw [xgcd_gcd, ← Nat.gcd_rec]
    have hga : Nat.gcd a b ∣ a := Nat.gcd_dvd_left _ _
    have hgr : Nat.gcd a b ∣ b % a := (Nat.dvd_mod_iff hga).2 (Nat.gcd_dvd_right _ _)
    have hlt : b % a < a := Nat.mod_lt _ (by omega)
    have hb : (b : Int) = a * (b / a : Nat) + (b % a : Nat) := by
      exact_mod_cast (Nat.div_add_mod b a).symm
    have ha2 : 2 * Nat.gcd a b ≤ a := by
      obtain ⟨c, hc⟩ := hga
      have : Nat.gcd a b ≤ b % a := Nat.le_of_dvd (by omega) hgr
      have h2 : 2 ≤ c := by
        by_contra hlt2
        have : Nat.gcd a b * c ≤ Nat.gcd a b * 1 := Nat.mul_le_mul_left _ (by omega)
        omega
      calc 2 * Nat.gcd a b = Nat.gcd a b * 2 := Nat.mul_comm _ _
        _ ≤ Nat.gcd a b * c := Nat.mul_le_mul_left _ h2
        _ = a := hc.symm
    have hq : (0 : Int) ≤ (b / a : Nat) := Int.natCast_nonneg _
    rw [xgcd_pos b h]
    simp only
    by_cases hrg : b % a = Nat.gcd a b
    · have hd : b % a ∣ a := hrg ▸ hga
      rw [xgcd_of_dvd hr hd]
      apply le_max_of_le_right
      simp only [zero_sub, mul_one, abs_neg, abs_of_nonneg hq]
      have : (2 * (b % a : Nat) : Int) ≤ a := by exact_mod_cast hrg ▸ ha2
      nlinarith
    · have hr2 : 2 * Nat.gcd a b ≤ b % a := by
        obtain ⟨c, hc⟩ := hgr
        have hc2 : 2 ≤ c := by
          by_contra hlt2
          obtain rfl | rfl : c = 0 ∨ c = 1 := by omega
          · simp at hc; omega
          · simp at hc; omega
        calc 2 * Nat.gcd a b = Nat.gcd a b * 2 := Nat.mul_comm _ _
          _ ≤ Nat.gcd a b * c := Nat.mul_le_mul_left _ hc2
          _ = b % a := hc.symm
      rw [hg] at ih ⊢
      have e1 : max (2 * (Nat.gcd a b : Int)) (a : Int) = a := max_eq_right (by exact_mod_cast ha2)
      have e2 : max (2 * (Nat.gcd a b : Int)) ((b % a : Nat) : Int) = (b % a : Nat) :=
        max_eq_right (by exact_mod_cast hr2)
      rw [e1, e2] at ih
      apply le_max_of_le_right
      have habs := abs_sub (xgcd (b % a) a).2.2 ((b / a : Nat) * (xgcd (b % a) a).2.1)
      rw [abs_mul, abs_of_nonneg hq] at habs
      have hg0 : (0 : Int) ≤ 2 * (Nat.gcd a b : Int) := by positivity
      have := mul_le_mul_of_nonneg_left habs hg0
      have h1 := mul_le_mul_of_nonneg_left ih.1 hq
      nlinarith [ih.2]

/-- The coefficients of W-bit operands are below 2^(W−1) in absolute value (R80), for W ≥ 2. -/
theorem xgcd_abs_lt {w a b : Nat} (hw : 2 ≤ w) (ha : a < 2 ^ w) (hb : b < 2 ^ w) :
    |(xgcd a b).2.1| < 2 ^ (w - 1) ∧ |(xgcd a b).2.2| < 2 ^ (w - 1) := by
  have hpow : (2 : Int) ^ w = 2 * 2 ^ (w - 1) := by
    obtain ⟨v, rfl⟩ : ∃ v, w = v + 1 := ⟨w - 1, by omega⟩
    rw [pow_succ]; simp; ring
  have hge : (2 : Int) ≤ 2 ^ (w - 1) := by
    calc (2 : Int) = 2 ^ 1 := rfl
      _ ≤ 2 ^ (w - 1) := pow_le_pow_right₀ (by norm_num) (by omega)
  have hai : (a : Int) < 2 ^ w := by exact_mod_cast ha
  have hbi : (b : Int) < 2 ^ w := by exact_mod_cast hb
  have key : ∀ z m : Int, m < 2 ^ w → 2 * ((xgcd a b).1 : Int) * |z| ≤ max (2 * (xgcd a b).1 : Int) m →
      (xgcd a b).1 ≠ 0 → |z| < 2 ^ (w - 1) := by
    intro z m hm hz hg
    have hg1 : (1 : Int) ≤ (xgcd a b).1 := by exact_mod_cast Nat.one_le_iff_ne_zero.2 hg
    rcases max_choice (2 * (xgcd a b).1 : Int) m with h | h <;> rw [h] at hz
    · have : |z| ≤ 1 := by nlinarith [abs_nonneg z]
      linarith
    · have : 2 * |z| ≤ m := by nlinarith [abs_nonneg z]
      linarith
  by_cases hg : (xgcd a b).1 = 0
  · rw [xgcd_gcd, Nat.gcd_eq_zero_iff] at hg
    obtain ⟨rfl, rfl⟩ := hg
    simp only [xgcd_zero, abs_zero, abs_one]
    omega
  · exact ⟨key _ b hbi (xgcd_bound a b).1 hg, key _ a hai (xgcd_bound a b).2 hg⟩

theorem fitsSigned_of_abs_lt {w : Nat} {z : Int} (h : |z| < 2 ^ (w - 1)) : fitsSigned w z = true := by
  have := abs_lt.1 h
  simp only [fitsSigned, Bool.and_eq_true, decide_eq_true_eq]
  omega

/-- The loop of rule R90 computes r·b^k mod n. -/
theorem expmodLoop_eq (n : Nat) :
    ∀ f r b k, r < n → k < 2 ^ f → expmodLoop n f r b k = r * b ^ k % n := by
  intro f
  induction f with
  | zero =>
    intro r b k hr hk
    have : k = 0 := by simpa using hk
    simp [expmodLoop, this, Nat.mod_eq_of_lt hr]
  | succ f ih =>
    intro r b k hr hk
    by_cases h0 : k = 0
    · simp [expmodLoop, h0, Nat.mod_eq_of_lt hr]
    have hn : 0 < n := by omega
    have hk2 : k / 2 < 2 ^ f := by rw [pow_succ] at hk; omega
    have hpow : b ^ k = (b * b) ^ (k / 2) * b ^ (k % 2) := by
      rw [← sq, ← pow_mul, ← pow_add, Nat.div_add_mod]
    rw [expmodLoop, if_neg h0]
    rcases Nat.mod_two_eq_zero_or_one k with h | h
    · rw [if_neg (by omega), ih _ _ _ hr hk2, hpow, h, pow_zero, mul_one,
        Nat.mul_mod, ← Nat.pow_mod, ← Nat.mul_mod]
    · rw [if_pos h, ih _ _ _ (Nat.mod_lt _ hn) hk2, hpow, h, pow_one,
        Nat.mul_mod, ← Nat.pow_mod, Nat.mod_mod, ← Nat.mul_mod]
      congr 1
      ring

/-- Square-and-multiply (R90) computes m^e mod n (R89). -/
theorem expmod_eq_pow_mod {n : Nat} (m e : Nat) (hn : 0 < n) : expmod m e n = m ^ e % n := by
  rw [expmod, expmodLoop_eq n _ _ _ _ (Nat.mod_lt _ hn) Nat.lt_log2_self, Nat.mul_mod,
    ← Nat.pow_mod, Nat.mod_mod, ← Nat.mul_mod, one_mul]

/-- `enc_W` of a natural number that fits is read back by `uval` (R11). -/
theorem uval_enc {w n : Nat} (h : n < 2 ^ w) : uval (enc w (n : Int)) = n := by
  simp [uval, enc, Nat.mod_eq_of_lt h]

/-- `enc_W` of an integer in the signed range is read back by `sval` (R11). -/
theorem sval_enc {w : Nat} {z : Int} (hw : 0 < w) (h : fitsSigned w z = true) : sval (enc w z) = z := by
  simp only [fitsSigned, Bool.and_eq_true, decide_eq_true_eq] at h
  have h2 : (2 : Int) ^ w = 2 * 2 ^ (w - 1) := by
    obtain ⟨v, rfl⟩ : ∃ v, w = v + 1 := ⟨w - 1, by omega⟩
    rw [pow_succ]; simp; ring
  rw [sval, enc, BitVec.toInt_ofInt]
  apply Int.bmod_eq_of_le <;> push_cast <;> omega

end Sys2Proof.Machine
end

