-- ==== Sys2Proof/Laws/Decode.lean ====
section
/-! SUPPORT. The fields of a packed word, and a word as the pack of its fields. -/

namespace Sys2Proof

/-- A register index has no bit above bit 2. -/
theorem testBit_reg (k : Reg) {n : Nat} (h : 3 ≤ n) : Nat.testBit k.val n = false :=
  Nat.testBit_lt_two_pow (lt_of_lt_of_le k.isLt (Nat.pow_le_pow_right (by omega) h : 2 ^ 3 ≤ 2 ^ n))

/-- The bits of a packed word, field by field (R63). -/
theorem getLsbD_packFields (opc : BitVec 8) (h : Bool) (fs2 fs1 fs0 fd2 fd1 fd0 : Reg) (n : Nat) :
    (packFields opc h fs2 fs1 fs0 fd2 fd1 fd0).getLsbD n =
      (decide (n < 32) &&
        if n < 3 then Nat.testBit fd0 n
        else if n < 6 then Nat.testBit fd1 (n - 3)
        else if n < 9 then Nat.testBit fd2 (n - 6)
        else if n < 12 then Nat.testBit fs0 (n - 9)
        else if n < 15 then Nat.testBit fs1 (n - 12)
        else if n < 18 then Nat.testBit fs2 (n - 15)
        else if n < 23 then false
        else if n < 24 then h
        else opc.getLsbD (n - 24)) := by
  by_cases hn : n < 32
  · simp only [hn, decide_true, Bool.true_and]
    have hlow : ∀ (k : Reg) (m : Nat), 3 ≤ m → (k.val).testBit m = false := fun k m hm => testBit_reg k hm
    simp only [packFields, BitVec.getLsbD_or, BitVec.getLsbD_shiftLeft, BitVec.getLsbD_setWidth,
      BitVec.getLsbD_ofNat]
    interval_cases n <;> simp [hlow]
  · rw [BitVec.getLsbD_of_ge _ _ (by omega)]
    simp [hn]

theorem regField_eq_of_bits {v : Word} {lo : Nat} {k : Reg}
    (h : ∀ n, n < 3 → v.getLsbD (lo + n) = Nat.testBit k.val n) : regField lo v = k := by
  apply Fin.ext
  apply Nat.eq_of_testBit_eq
  intro n
  have hb : (regField lo v).val.testBit n = (v.extractLsb' lo 3).getLsbD n := rfl
  rw [hb, BitVec.getLsbD_extractLsb']
  by_cases hn : n < 3
  · simp [hn, h n hn]
  · simp [hn, testBit_reg k (by omega : 3 ≤ n)]

section
variable (opc : BitVec 8) (h : Bool) (fs2 fs1 fs0 fd2 fd1 fd0 : Reg)

theorem fd0Field_packFields : fd0Field (packFields opc h fs2 fs1 fs0 fd2 fd1 fd0) = fd0 := by
  apply regField_eq_of_bits; intro n hn
  rw [getLsbD_packFields]; interval_cases n <;> simp

theorem fd1Field_packFields : fd1Field (packFields opc h fs2 fs1 fs0 fd2 fd1 fd0) = fd1 := by
  apply regField_eq_of_bits; intro n hn
  rw [getLsbD_packFields]; interval_cases n <;> simp

theorem fd2Field_packFields : fd2Field (packFields opc h fs2 fs1 fs0 fd2 fd1 fd0) = fd2 := by
  apply regField_eq_of_bits; intro n hn
  rw [getLsbD_packFields]; interval_cases n <;> simp

theorem fs0Field_packFields : fs0Field (packFields opc h fs2 fs1 fs0 fd2 fd1 fd0) = fs0 := by
  apply regField_eq_of_bits; intro n hn
  rw [getLsbD_packFields]; interval_cases n <;> simp

theorem fs1Field_packFields : fs1Field (packFields opc h fs2 fs1 fs0 fd2 fd1 fd0) = fs1 := by
  apply regField_eq_of_bits; intro n hn
  rw [getLsbD_packFields]; interval_cases n <;> simp

theorem fs2Field_packFields : fs2Field (packFields opc h fs2 fs1 fs0 fd2 fd1 fd0) = fs2 := by
  apply regField_eq_of_bits; intro n hn
  rw [getLsbD_packFields]; interval_cases n <;> simp

theorem hField_packFields : hField (packFields opc h fs2 fs1 fs0 fd2 fd1 fd0) = h := by
  rw [hField, getLsbD_packFields]; simp

theorem opcField_packFields : opcField (packFields opc h fs2 fs1 fs0 fd2 fd1 fd0) = opc := by
  apply BitVec.eq_of_getLsbD_eq; intro n hn
  rw [opcField, BitVec.getLsbD_extractLsb', getLsbD_packFields]
  interval_cases n <;> simp

theorem rsvField_packFields : rsvField (packFields opc h fs2 fs1 fs0 fd2 fd1 fd0) = 0#5 := by
  apply BitVec.eq_of_getLsbD_eq; intro n hn
  rw [rsvField, BitVec.getLsbD_extractLsb', getLsbD_packFields]
  interval_cases n <;> simp
end

/-- A bit of a register field is a bit of the word. -/
theorem testBit_regField (lo n : Nat) (v : Word) :
    Nat.testBit (regField lo v).val n = (decide (n < 3) && v.getLsbD (lo + n)) := by
  have hb : (regField lo v).val.testBit n = (v.extractLsb' lo 3).getLsbD n := rfl
  rw [hb, BitVec.getLsbD_extractLsb']

/-- A word whose reserved bits are 0 is the pack of its fields (R63). -/
theorem packFields_fields {v : Word} (hr : rsvField v = 0#5) :
    packFields (opcField v) (hField v) (fs2Field v) (fs1Field v) (fs0Field v) (fd2Field v) (fd1Field v)
      (fd0Field v) = v := by
  have hz : ∀ n, n < 5 → v.getLsbD (18 + n) = false := by
    intro n hn
    have := congrArg (fun x => x.getLsbD n) hr
    simpa [rsvField, BitVec.getLsbD_extractLsb', hn] using this
  apply BitVec.eq_of_getLsbD_eq; intro n hn
  rw [getLsbD_packFields]
  simp only [fs2Field, fs1Field, fs0Field, fd2Field, fd1Field, fd0Field, hField, opcField,
    testBit_regField, BitVec.getLsbD_extractLsb']
  have h0 := hz 0 (by omega); have h1 := hz 1 (by omega); have h2 := hz 2 (by omega)
  have h3 := hz 3 (by omega); have h4 := hz 4 (by omega)
  interval_cases n <;> simp_all

end Sys2Proof
end

