-- ==== Sys2Proof/Laws/State.lean ====
section
/-! SUPPORT. One lemma per field per update of the state, each true by rfl. -/

namespace Sys2Proof.Machine

@[simp] theorem Block.setReg_d {w : Nat} (b : Block w) (k : Reg) (v : BitVec w) :
    (b.setReg k v).d = b.d.set k.val v := rfl
@[simp] theorem Block.setReg_busy {w : Nat} (b : Block w) (k : Reg) (v : BitVec w) :
    (b.setReg k v).busy = b.busy := rfl
@[simp] theorem Block.setReg_done {w : Nat} (b : Block w) (k : Reg) (v : BitVec w) :
    (b.setReg k v).done = b.done := rfl
@[simp] theorem Block.setReg_err {w : Nat} (b : Block w) (k : Reg) (v : BitVec w) :
    (b.setReg k v).err = b.err := rfl
@[simp] theorem Block.setReg_errcode {w : Nat} (b : Block w) (k : Reg) (v : BitVec w) :
    (b.setReg k v).errcode = b.errcode := rfl
@[simp] theorem Block.setReg_coll {w : Nat} (b : Block w) (k : Reg) (v : BitVec w) :
    (b.setReg k v).coll = b.coll := rfl
@[simp] theorem Block.setReg_irqEn {w : Nat} (b : Block w) (k : Reg) (v : BitVec w) :
    (b.setReg k v).irqEn = b.irqEn := rfl
@[simp] theorem Block.setReg_cmdLast {w : Nat} (b : Block w) (k : Reg) (v : BitVec w) :
    (b.setReg k v).cmdLast = b.cmdLast := rfl
@[simp] theorem Block.setReg_latch {w : Nat} (b : Block w) (k : Reg) (v : BitVec w) :
    (b.setReg k v).latch = b.latch := rfl

@[simp] theorem Block.clearForAccept_d {w : Nat} (b : Block w) :
    (b.clearForAccept).d = b.d := rfl
@[simp] theorem Block.clearForAccept_busy {w : Nat} (b : Block w) :
    (b.clearForAccept).busy = b.busy := rfl
@[simp] theorem Block.clearForAccept_done {w : Nat} (b : Block w) :
    (b.clearForAccept).done = false := rfl
@[simp] theorem Block.clearForAccept_err {w : Nat} (b : Block w) :
    (b.clearForAccept).err = false := rfl
@[simp] theorem Block.clearForAccept_errcode {w : Nat} (b : Block w) :
    (b.clearForAccept).errcode = 0#4 := rfl
@[simp] theorem Block.clearForAccept_coll {w : Nat} (b : Block w) :
    (b.clearForAccept).coll = b.coll := rfl
@[simp] theorem Block.clearForAccept_irqEn {w : Nat} (b : Block w) :
    (b.clearForAccept).irqEn = b.irqEn := rfl
@[simp] theorem Block.clearForAccept_cmdLast {w : Nat} (b : Block w) :
    (b.clearForAccept).cmdLast = b.cmdLast := rfl
@[simp] theorem Block.clearForAccept_latch {w : Nat} (b : Block w) :
    (b.clearForAccept).latch = b.latch := rfl

@[simp] theorem Block.collide_d {w : Nat} (b : Block w) :
    (b.collide).d = b.d := rfl
@[simp] theorem Block.collide_busy {w : Nat} (b : Block w) :
    (b.collide).busy = b.busy := rfl
@[simp] theorem Block.collide_done {w : Nat} (b : Block w) :
    (b.collide).done = b.done := rfl
@[simp] theorem Block.collide_err {w : Nat} (b : Block w) :
    (b.collide).err = b.err := rfl
@[simp] theorem Block.collide_errcode {w : Nat} (b : Block w) :
    (b.collide).errcode = b.errcode := rfl
@[simp] theorem Block.collide_coll {w : Nat} (b : Block w) :
    (b.collide).coll = true := rfl
@[simp] theorem Block.collide_irqEn {w : Nat} (b : Block w) :
    (b.collide).irqEn = b.irqEn := rfl
@[simp] theorem Block.collide_cmdLast {w : Nat} (b : Block w) :
    (b.collide).cmdLast = b.cmdLast := rfl
@[simp] theorem Block.collide_latch {w : Nat} (b : Block w) :
    (b.collide).latch = b.latch := rfl

@[simp] theorem Block.endInSuccess_d {w : Nat} (b : Block w) :
    (b.endInSuccess).d = b.d := rfl
@[simp] theorem Block.endInSuccess_busy {w : Nat} (b : Block w) :
    (b.endInSuccess).busy = false := rfl
@[simp] theorem Block.endInSuccess_done {w : Nat} (b : Block w) :
    (b.endInSuccess).done = true := rfl
@[simp] theorem Block.endInSuccess_err {w : Nat} (b : Block w) :
    (b.endInSuccess).err = false := rfl
@[simp] theorem Block.endInSuccess_errcode {w : Nat} (b : Block w) :
    (b.endInSuccess).errcode = 0#4 := rfl
@[simp] theorem Block.endInSuccess_coll {w : Nat} (b : Block w) :
    (b.endInSuccess).coll = b.coll := rfl
@[simp] theorem Block.endInSuccess_irqEn {w : Nat} (b : Block w) :
    (b.endInSuccess).irqEn = b.irqEn := rfl
@[simp] theorem Block.endInSuccess_cmdLast {w : Nat} (b : Block w) :
    (b.endInSuccess).cmdLast = b.cmdLast := rfl
@[simp] theorem Block.endInSuccess_latch {w : Nat} (b : Block w) :
    (b.endInSuccess).latch = b.latch := rfl

@[simp] theorem Block.endInError_d {w : Nat} (b : Block w) (e : ErrorCode) :
    (b.endInError e).d = b.d := rfl
@[simp] theorem Block.endInError_busy {w : Nat} (b : Block w) (e : ErrorCode) :
    (b.endInError e).busy = false := rfl
@[simp] theorem Block.endInError_done {w : Nat} (b : Block w) (e : ErrorCode) :
    (b.endInError e).done = true := rfl
@[simp] theorem Block.endInError_err {w : Nat} (b : Block w) (e : ErrorCode) :
    (b.endInError e).err = true := rfl
@[simp] theorem Block.endInError_errcode {w : Nat} (b : Block w) (e : ErrorCode) :
    (b.endInError e).errcode = e.code := rfl
@[simp] theorem Block.endInError_coll {w : Nat} (b : Block w) (e : ErrorCode) :
    (b.endInError e).coll = b.coll := rfl
@[simp] theorem Block.endInError_irqEn {w : Nat} (b : Block w) (e : ErrorCode) :
    (b.endInError e).irqEn = b.irqEn := rfl
@[simp] theorem Block.endInError_cmdLast {w : Nat} (b : Block w) (e : ErrorCode) :
    (b.endInError e).cmdLast = b.cmdLast := rfl
@[simp] theorem Block.endInError_latch {w : Nat} (b : Block w) (e : ErrorCode) :
    (b.endInError e).latch = b.latch := rfl

@[simp] theorem Block.statusWrite_d {w : Nat} (b : Block w) (v : Word) :
    (b.statusWrite v).d = b.d := rfl
@[simp] theorem Block.statusWrite_busy {w : Nat} (b : Block w) (v : Word) :
    (b.statusWrite v).busy = b.busy := rfl
@[simp] theorem Block.statusWrite_done {w : Nat} (b : Block w) (v : Word) :
    (b.statusWrite v).done = (b.done && !v.getLsbD 1) := rfl
@[simp] theorem Block.statusWrite_err {w : Nat} (b : Block w) (v : Word) :
    (b.statusWrite v).err = (b.err && !v.getLsbD 2) := rfl
@[simp] theorem Block.statusWrite_errcode {w : Nat} (b : Block w) (v : Word) :
    (b.statusWrite v).errcode = (if v.getLsbD 2 then 0#4 else b.errcode) := rfl
@[simp] theorem Block.statusWrite_coll {w : Nat} (b : Block w) (v : Word) :
    (b.statusWrite v).coll = (b.coll && !v.getLsbD 8) := rfl
@[simp] theorem Block.statusWrite_irqEn {w : Nat} (b : Block w) (v : Word) :
    (b.statusWrite v).irqEn = b.irqEn := rfl
@[simp] theorem Block.statusWrite_cmdLast {w : Nat} (b : Block w) (v : Word) :
    (b.statusWrite v).cmdLast = b.cmdLast := rfl
@[simp] theorem Block.statusWrite_latch {w : Nat} (b : Block w) (v : Word) :
    (b.statusWrite v).latch = b.latch := rfl

@[simp] theorem Block.acceptIllegal_d {w : Nat} (b : Block w) (v : Word) :
    (b.acceptIllegal v).d = b.d := rfl
@[simp] theorem Block.acceptIllegal_busy {w : Nat} (b : Block w) (v : Word) :
    (b.acceptIllegal v).busy = false := rfl
@[simp] theorem Block.acceptIllegal_done {w : Nat} (b : Block w) (v : Word) :
    (b.acceptIllegal v).done = true := rfl
@[simp] theorem Block.acceptIllegal_err {w : Nat} (b : Block w) (v : Word) :
    (b.acceptIllegal v).err = true := rfl
@[simp] theorem Block.acceptIllegal_errcode {w : Nat} (b : Block w) (v : Word) :
    (b.acceptIllegal v).errcode = 3#4 := rfl
@[simp] theorem Block.acceptIllegal_coll {w : Nat} (b : Block w) (v : Word) :
    (b.acceptIllegal v).coll = b.coll := rfl
@[simp] theorem Block.acceptIllegal_irqEn {w : Nat} (b : Block w) (v : Word) :
    (b.acceptIllegal v).irqEn = b.irqEn := rfl
@[simp] theorem Block.acceptIllegal_cmdLast {w : Nat} (b : Block w) (v : Word) :
    (b.acceptIllegal v).cmdLast = v := rfl
@[simp] theorem Block.acceptIllegal_latch {w : Nat} (b : Block w) (v : Word) :
    (b.acceptIllegal v).latch = b.latch := rfl

@[simp] theorem Block.acceptLegal_d {w : Nat} (b : Block w) (v : Word) (i : Instr) :
    (b.acceptLegal v i).d = b.d := rfl
@[simp] theorem Block.acceptLegal_busy {w : Nat} (b : Block w) (v : Word) (i : Instr) :
    (b.acceptLegal v i).busy = true := rfl
@[simp] theorem Block.acceptLegal_done {w : Nat} (b : Block w) (v : Word) (i : Instr) :
    (b.acceptLegal v i).done = false := rfl
@[simp] theorem Block.acceptLegal_err {w : Nat} (b : Block w) (v : Word) (i : Instr) :
    (b.acceptLegal v i).err = false := rfl
@[simp] theorem Block.acceptLegal_errcode {w : Nat} (b : Block w) (v : Word) (i : Instr) :
    (b.acceptLegal v i).errcode = 0#4 := rfl
@[simp] theorem Block.acceptLegal_coll {w : Nat} (b : Block w) (v : Word) (i : Instr) :
    (b.acceptLegal v i).coll = b.coll := rfl
@[simp] theorem Block.acceptLegal_irqEn {w : Nat} (b : Block w) (v : Word) (i : Instr) :
    (b.acceptLegal v i).irqEn = b.irqEn := rfl
@[simp] theorem Block.acceptLegal_cmdLast {w : Nat} (b : Block w) (v : Word) (i : Instr) :
    (b.acceptLegal v i).cmdLast = v := rfl
@[simp] theorem Block.acceptLegal_latch {w : Nat} (b : Block w) (v : Word) (i : Instr) :
    (b.acceptLegal v i).latch = b.latchFor v i := rfl

@[simp] theorem Block.doReset_d {w : Nat} (b : Block w) : b.doReset.d = Vector.replicate 8 0#w := rfl
@[simp] theorem Block.doReset_busy {w : Nat} (b : Block w) : b.doReset.busy = false := rfl
@[simp] theorem Block.doReset_done {w : Nat} (b : Block w) : b.doReset.done = false := rfl
@[simp] theorem Block.doReset_err {w : Nat} (b : Block w) : b.doReset.err = false := rfl
@[simp] theorem Block.doReset_errcode {w : Nat} (b : Block w) : b.doReset.errcode = 0#4 := rfl
@[simp] theorem Block.doReset_coll {w : Nat} (b : Block w) : b.doReset.coll = false := rfl
@[simp] theorem Block.doReset_irqEn {w : Nat} (b : Block w) : b.doReset.irqEn = false := rfl
@[simp] theorem Block.doReset_cmdLast {w : Nat} (b : Block w) : b.doReset.cmdLast = 0#32 := rfl
@[simp] theorem Block.doReset_latch {w : Nat} (b : Block w) : b.doReset.latch = Latch.reset w := rfl

@[simp] theorem HostState.opDone_ops (h : HostState) :
    (h.opDone).ops = h.ops.tail := rfl
@[simp] theorem HostState.opDone_reads (h : HostState) :
    (h.opDone).reads = h.reads := rfl
@[simp] theorem HostState.opDone_faulted (h : HostState) :
    (h.opDone).faulted = h.faulted := rfl

@[simp] theorem HostState.opRead_ops (h : HostState) (v : Word) :
    (h.opRead v).ops = h.ops.tail := rfl
@[simp] theorem HostState.opRead_reads (h : HostState) (v : Word) :
    (h.opRead v).reads = h.reads ++ [v] := rfl
@[simp] theorem HostState.opRead_faulted (h : HostState) (v : Word) :
    (h.opRead v).faulted = h.faulted := rfl

@[simp] theorem HostState.opFault_ops (h : HostState) :
    (h.opFault).ops = h.ops.tail := rfl
@[simp] theorem HostState.opFault_reads (h : HostState) :
    (h.opFault).reads = h.reads := rfl
@[simp] theorem HostState.opFault_faulted (h : HostState) :
    (h.opFault).faulted = true := rfl

/-- Reading a register after writing one (R17). -/
theorem Block.reg_setReg {w : Nat} (b : Block w) (k j : Reg) (v : BitVec w) :
    (b.setReg k v).reg j = if k = j then v else b.reg j := by
  simp only [Block.reg, Block.setReg, Vector.getElem_set, Fin.ext_iff]

@[simp] theorem Block.reg_setReg_self {w : Nat} (b : Block w) (k : Reg) (v : BitVec w) :
    (b.setReg k v).reg k = v := by
  simp [Block.reg_setReg]

theorem Block.reg_setReg_ne {w : Nat} (b : Block w) {k j : Reg} (v : BitVec w) (h : k ≠ j) :
    (b.setReg k v).reg j = b.reg j := by
  simp [Block.reg_setReg, h]

/-- A block's registers determine its register file. -/
theorem Block.d_ext {w : Nat} {b c : Block w} (h : ∀ k, b.reg k = c.reg k) : b.d = c.d :=
  Vector.ext fun i hi => h ⟨i, hi⟩

@[simp] theorem Block.reg_reset (w : Nat) (k : Reg) : (Block.reset w).reg k = 0#w := by
  simp [Block.reg, Block.reset]

end Sys2Proof.Machine
end

