-- ==== Sys2Proof/Laws/Draws.lean ====
section
/-! SUPPORT. What KEYGEN draws (42_key_generator.md rule R86). -/

namespace Sys2Proof.Machine

/-- A draw lies in [2, φ − 1], whatever the source holds. -/
theorem drawInRange_bounds {phi raw : Nat} (h : 3 ≤ phi) :
    2 ≤ drawInRange phi raw ∧ drawInRange phi raw ≤ phi - 1 := by
  unfold drawInRange
  split
  · omega
  · have := Nat.mod_lt raw (show phi - 2 > 0 by omega)
    omega

/-- A value of the range stands for itself. -/
theorem drawInRange_self {phi raw : Nat} (h1 : 2 ≤ raw) (h2 : raw ≤ phi - 1) :
    drawInRange phi raw = raw := by
  rw [drawInRange, if_pos (by omega)]

theorem Rng.draw_bounds {phi : Nat} (g : Rng) (h : 3 ≤ phi) :
    2 ≤ (g.draw phi).1 ∧ (g.draw phi).1 ≤ phi - 1 := by
  unfold Rng.draw
  split <;> exact drawInRange_bounds h

/-- The sampling loop's draws: all in range, and either the last one, and only it, is coprime to φ, or
none is and every try was used. -/
theorem sample_spec {phi : Nat} (h : 3 ≤ phi) (tries : Nat) (g : Rng) :
    (∀ r ∈ (sample phi tries g).1, 2 ≤ r ∧ r ≤ phi - 1) ∧
      ((∃ before e, (sample phi tries g).1 = before ++ [e] ∧ before.length + 1 ≤ tries ∧
          (∀ r ∈ before, Nat.gcd r phi ≠ 1) ∧ Nat.gcd e phi = 1) ∨
        ((sample phi tries g).1.length = tries ∧
          ∀ r ∈ (sample phi tries g).1, Nat.gcd r phi ≠ 1)) := by
  induction tries generalizing g with
  | zero => simp [sample]
  | succ tries ih =>
    have hb := g.draw_bounds h
    obtain ⟨hr, hs⟩ := ih (g.draw phi).2
    by_cases hc : stdGcd (g.draw phi).1 phi = 1
    · have he : (sample phi (tries + 1) g).1 = [(g.draw phi).1] := by simp [sample, hc]
      rw [he]
      rw [stdGcd_eq_gcd] at hc
      exact ⟨by simpa using hb, .inl ⟨[], _, rfl, by simp, by simp, hc⟩⟩
    · have he : (sample phi (tries + 1) g).1 =
          (g.draw phi).1 :: (sample phi tries (g.draw phi).2).1 := by simp [sample, hc]
      rw [he]
      rw [stdGcd_eq_gcd] at hc
      refine ⟨by simpa using ⟨hb, hr⟩, ?_⟩
      rcases hs with ⟨before, e, h1, h2, h3, h4⟩ | ⟨h1, h2⟩
      · refine .inl ⟨(g.draw phi).1 :: before, e, by rw [h1]; rfl, by simpa using h2, ?_, h4⟩
        simpa using ⟨hc, h3⟩
      · exact .inr ⟨by simp [h1], by simpa using ⟨hc, h2⟩⟩

/-- A list of rejected draws at the head of the source is drawn as it stands. -/
theorem sample_rejected {phi : Nat} (before rest : List Nat) (tries count : Nat)
    (hb : ∀ r ∈ before, 2 ≤ r ∧ r ≤ phi - 1 ∧ Nat.gcd r phi ≠ 1) (hl : before.length ≤ tries) :
    sample phi tries { queue := before ++ rest, count := count } =
      (before ++ (sample phi (tries - before.length) { queue := rest, count := count }).1,
        (sample phi (tries - before.length) { queue := rest, count := count }).2) := by
  induction before generalizing tries with
  | nil => simp
  | cons r before ih =>
    obtain ⟨tries, rfl⟩ : ∃ n, tries = n + 1 := ⟨tries - 1, by simp at hl; omega⟩
    have hr := hb r (by simp)
    have hg : stdGcd r phi ≠ 1 := by rw [stdGcd_eq_gcd]; exact hr.2.2
    simp only [List.length_cons, Nat.add_le_add_iff_right] at hl
    simp only [List.cons_append, sample, Rng.draw, drawInRange_self hr.1 hr.2.1, if_neg hg,
      ih tries (fun x hx => hb x (by simp [hx])) hl, List.length_cons, Nat.add_sub_add_right]

/-- Shape (b) of rule R86 at the head of the source is what the loop draws. -/
theorem sample_accepting {phi : Nat} (before rest : List Nat) (e tries count : Nat)
    (hb : ∀ r ∈ before, 2 ≤ r ∧ r ≤ phi - 1 ∧ Nat.gcd r phi ≠ 1) (hl : before.length + 1 ≤ tries)
    (he : 2 ≤ e ∧ e ≤ phi - 1) (hg : Nat.gcd e phi = 1) :
    sample phi tries { queue := before ++ e :: rest, count := count } =
      (before ++ [e], { queue := rest, count := count }) := by
  obtain ⟨m, hm⟩ : ∃ m, tries - before.length = m + 1 := ⟨tries - before.length - 1, by omega⟩
  have : stdGcd e phi = 1 := by rw [stdGcd_eq_gcd]; exact hg
  rw [sample_rejected before (e :: rest) tries count hb (by omega), hm]
  simp [sample, Rng.draw, drawInRange_self he.1 he.2, this]

/-- Shape (c) of rule R86 at the head of the source is what the loop draws. -/
theorem sample_exhausting {phi : Nat} (draws rest : List Nat) (count : Nat)
    (hb : ∀ r ∈ draws, 2 ≤ r ∧ r ≤ phi - 1 ∧ Nat.gcd r phi ≠ 1) :
    sample phi draws.length { queue := draws ++ rest, count := count } =
      (draws, { queue := rest, count := count }) := by
  rw [sample_rejected draws rest _ count hb le_rfl]
  simp [sample]

/-- The accepted draw of a list of shape (b) is its last. -/
theorem acceptedDraw_accepting {phi : Nat} (before : List Nat) (e : Nat)
    (hb : ∀ r ∈ before, Nat.gcd r phi ≠ 1) (hg : Nat.gcd e phi = 1) :
    acceptedDraw phi (before ++ [e]) = some e := by
  have hn : before.find? (fun r => decide (stdGcd r phi = 1)) = none := by
    rw [List.find?_eq_none]
    intro r hr
    simp [stdGcd_eq_gcd, hb r hr]
  rw [acceptedDraw, List.find?_append, hn]
  simp [stdGcd_eq_gcd, hg]

/-- No draw of a list of shape (c) is accepted. -/
theorem acceptedDraw_exhausting {phi : Nat} (draws : List Nat)
    (hb : ∀ r ∈ draws, Nat.gcd r phi ≠ 1) : acceptedDraw phi draws = none := by
  rw [acceptedDraw, List.find?_eq_none]
  intro r hr
  simp [stdGcd_eq_gcd, hb r hr]

/-- What the checks before sampling mean (R84, R85). -/
theorem keyParamError_none {w p q : Nat} :
    keyParamError w p q = none ↔ p ≠ q ∧ 3 ≤ totient p q ∧ p * q < 2 ^ w := by
  unfold keyParamError
  split
  · simp; omega
  · split
    · simp; omega
    · simp; omega

/-- `modInverse` on operands with an inverse (R81, R82). -/
theorem modInverse_ok {a m : Nat} (hg : Nat.gcd a m = 1) (hm : 0 < m) :
    ∃ r : Nat, modInverse a m = .ok r ∧ (r : Int) = (xgcd a m).2.1 % m ∧ r < m ∧
      a * r % m = 1 % m := by
  have hm' : (0 : Int) < m := by exact_mod_cast hm
  have hnn : 0 ≤ (xgcd a m).2.1 % (m : Int) := Int.emod_nonneg _ (by omega)
  have hr : (((xgcd a m).2.1 % (m : Int)).toNat : Int) = (xgcd a m).2.1 % m := Int.toNat_of_nonneg hnn
  refine ⟨((xgcd a m).2.1 % (m : Int)).toNat, ?_, hr, ?_, ?_⟩
  · have h1 : (xgcd a m).1 = 1 := by rw [xgcd_gcd, hg]
    unfold modInverse
    simp only [h1, ne_eq, not_true_eq_false, if_false, if_neg (by omega : ¬ m = 0)]
  · have := Int.emod_lt_of_pos (xgcd a m).2.1 hm'
    omega
  · have hb := xgcd_bezout a m
    rw [xgcd_gcd, hg] at hb
    zify
    rw [hr, Int.mul_emod, Int.emod_emod_of_dvd _ (dvd_refl _), ← Int.mul_emod]
    have : (a : Int) * (xgcd a m).2.1 = 1 + m * (-(xgcd a m).2.2) := by push_cast at hb; linarith
    rw [this, Int.add_mul_emod_self_left]

end Sys2Proof.Machine
end

