-- ==== Sys2Proof/Laws/Ops.lean ====
section
/-! SUPPORT. What each shared operation can do, said once: the register map, the words of a register,
acceptance, host writes, commits and completions. -/

namespace Sys2Proof.Machine

/-! ### The register map (R41) -/

theorem dataSlot_offset {words j : Nat} (k : Reg) (hw : words ≤ 64) (hj : j < words) :
    dataSlot words (0x100 + 0x100 * k.val + 4 * j) = .data k j := by
  have hk := k.isLt
  have h1 : 0x100 ≤ 0x100 + 0x100 * k.val + 4 * j ∧ 0x100 + 0x100 * k.val + 4 * j < 0x900 := by omega
  have h2 : (0x100 + 0x100 * k.val + 4 * j) % 0x100 / 4 = j := by omega
  have h3 : (0x100 + 0x100 * k.val + 4 * j) / 0x100 - 1 = k.val := by omega
  rw [dataSlot, dif_pos h1, if_pos (by omega)]
  simp only [h2, h3]

theorem slotAt_data {words j : Nat} (k : Reg) (hw : words ≤ 64) (hj : j < words) :
    slotAt words (0x100 + 0x100 * k.val + 4 * j) = .data k j := by
  simp only [slotAt]
  repeat rw [if_neg (by omega)]
  exact dataSlot_offset k hw hj

theorem dataSlot_cases (words off : Nat) :
    (∃ k j, dataSlot words off = .data k j ∧ j < words ∧
      off = 0x100 + 0x100 * k.val + 4 * j + off % 4) ∨
      (dataSlot words off = .reserved ∧
        ∀ (k : Reg) (j : Nat), j < words → words ≤ 64 → off ≠ 0x100 + 0x100 * k.val + 4 * j) := by
  by_cases h : 0x100 ≤ off ∧ off < 0x900
  · by_cases hj : off % 0x100 / 4 < words
    · refine .inl ⟨⟨off / 0x100 - 1, by omega⟩, off % 0x100 / 4, ?_, hj, ?_⟩
      · rw [dataSlot, dif_pos h, if_pos hj]
      · simp only; omega
    · refine .inr ⟨by rw [dataSlot, dif_pos h, if_neg hj], ?_⟩
      intro k j hj2 hw he
      omega
  · refine .inr ⟨by rw [dataSlot, dif_neg h], ?_⟩
    intro k j hj hw he
    have := k.isLt
    omega

/-- Every offset is one of the six fixed registers, a data word or reserved, and which one it is
determines it up to its two low bits (R41). -/
theorem slotAt_cases (words off : Nat) :
    (off = 0x000 ∧ slotAt words off = .id) ∨ (off = 0x004 ∧ slotAt words off = .cfg) ∨
    (off = 0x008 ∧ slotAt words off = .maxtry) ∨ (off = 0x010 ∧ slotAt words off = .cmd) ∨
    (off = 0x014 ∧ slotAt words off = .status) ∨ (off = 0x018 ∧ slotAt words off = .ctrl) ∨
    (∃ k j, slotAt words off = .data k j ∧ j < words ∧
      off = 0x100 + 0x100 * k.val + 4 * j + off % 4) ∨
    (slotAt words off = .reserved ∧ off ∉ [0x000, 0x004, 0x008, 0x010, 0x014, 0x018] ∧
      ∀ (k : Reg) (j : Nat), j < words → words ≤ 64 → off ≠ 0x100 + 0x100 * k.val + 4 * j) := by
  by_cases h0 : off = 0x000
  · exact .inl ⟨h0, by simp [slotAt, h0]⟩
  by_cases h1 : off = 0x004
  · exact .inr (.inl ⟨h1, by simp [slotAt, h1]⟩)
  by_cases h2 : off = 0x008
  · exact .inr (.inr (.inl ⟨h2, by simp [slotAt, h2]⟩))
  by_cases h3 : off = 0x010
  · exact .inr (.inr (.inr (.inl ⟨h3, by simp [slotAt, h3]⟩)))
  by_cases h4 : off = 0x014
  · exact .inr (.inr (.inr (.inr (.inl ⟨h4, by simp [slotAt, h4]⟩))))
  by_cases h5 : off = 0x018
  · exact .inr (.inr (.inr (.inr (.inr (.inl ⟨h5, by simp [slotAt, h5]⟩)))))
  have hs : slotAt words off = dataSlot words off := by
    simp only [slotAt, h0, h1, h2, h3, h4, h5, if_false]
  rcases dataSlot_cases words off with ⟨k, j, hd, hj, ho⟩ | ⟨hd, hn⟩
  · exact .inr (.inr (.inr (.inr (.inr (.inr (.inl ⟨k, j, hs.trans hd, hj, ho⟩))))))
  · refine .inr (.inr (.inr (.inr (.inr (.inr (.inr ⟨hs.trans hd, ?_, hn⟩))))))
    simp [h0, h1, h2, h3, h4, h5]

theorem badAccess_iff (off size : Nat) : badAccess off size = true ↔ size ≠ 4 ∨ off % 4 ≠ 0 := by
  simp [badAccess]

theorem goodAccess_iff (off size : Nat) : badAccess off size = false ↔ size = 4 ∧ off % 4 = 0 := by
  simp [badAccess]

/-! ### The words of a register (R44) -/

theorem getLsbD_putWord {w : Nat} (x : BitVec w) (j : Nat) (v : Word) {n : Nat} (hn : n < w) :
    (putWord x j v).getLsbD n =
      if 32 * j ≤ n ∧ n < 32 * j + 32 then v.getLsbD (n - 32 * j) else x.getLsbD n := by
  have hv : ∀ m, 32 ≤ m → v.getLsbD m = false := fun m hm => BitVec.getLsbD_of_ge v m hm
  simp only [putWord, BitVec.getLsbD_or, BitVec.getLsbD_and, BitVec.getLsbD_not,
    BitVec.getLsbD_shiftLeft, BitVec.getLsbD_setWidth, BitVec.getLsbD_allOnes, hn, decide_true,
    Bool.true_and]
  by_cases h1 : 32 * j ≤ n
  · have h3 : n - 32 * j < w := by omega
    by_cases h2 : n < 32 * j + 32
    · simp [h1, h2, h3, show ¬ n < 32 * j by omega, show n - 32 * j < 32 by omega]
    · simp [h2, show ¬ n < 32 * j by omega, hv (n - 32 * j) (by omega),
        show ¬ n - 32 * j < 32 by omega]
  · simp [h1, show n < 32 * j by omega]

theorem getWord_putWord_self {K j : Nat} (x : BitVec (32 * K)) (v : Word) (hj : j < K) :
    getWord (putWord x j v) j = v := by
  apply BitVec.eq_of_getLsbD_eq; intro n hn
  rw [getWord, BitVec.getLsbD_extractLsb', getLsbD_putWord _ _ _ (by omega)]
  simp [hn]

theorem getWord_putWord_ne {K i j : Nat} (x : BitVec (32 * K)) (v : Word) (hi : i < K) (h : i ≠ j) :
    getWord (putWord x j v) i = getWord x i := by
  apply BitVec.eq_of_getLsbD_eq; intro n hn
  rw [getWord, getWord, BitVec.getLsbD_extractLsb', BitVec.getLsbD_extractLsb',
    getLsbD_putWord _ _ _ (by omega)]
  rw [if_neg (by omega)]

/-! ### Acceptance (R48) -/

theorem legal_iff (v : Word) : legal v = true ↔ ∃ i, decode v = .ok i ∧ i.wellFormed = true := by
  unfold legal
  cases decode v <;> simp

theorem Block.accept_legal {w : Nat} (b : Block w) {v : Word} {i : Instr} (h : decode v = .ok i)
    (hw : i.wellFormed = true) : b.accept v = b.acceptLegal v i := by
  simp [Block.accept, h, hw]

theorem Block.accept_illegal {w : Nat} (b : Block w) {v : Word} (h : legal v = false) :
    b.accept v = b.acceptIllegal v := by
  unfold legal at h
  unfold Block.accept
  cases hd : decode v <;> simp_all

/-- Everything acceptance can do. -/
theorem Block.accept_cases {w : Nat} (b : Block w) (v : Word) :
    (legal v = false ∧ b.accept v = b.acceptIllegal v) ∨
      (legal v = true ∧ ∃ i, decode v = .ok i ∧ i.wellFormed = true ∧
        b.accept v = b.acceptLegal v i) := by
  cases h : legal v
  · exact .inl ⟨rfl, b.accept_illegal h⟩
  · obtain ⟨i, hd, hw⟩ := (legal_iff v).1 h
    exact .inr ⟨rfl, i, hd, hw, b.accept_legal hd hw⟩

/-! ### Host writes (R43) -/

/-- Everything an aligned 32-bit write of `v` at `off` can do to the block. -/
theorem Block.writeSlot_cases {w : Nat} (b : Block w) (words off : Nat) (v : Word) :
    (b.writeSlot (slotAt words off) v = b ∧ off ∉ [0x010, 0x014, 0x018] ∧
      ∀ (k : Reg) (j : Nat), j < words → words ≤ 64 → off ≠ 0x100 + 0x100 * k.val + 4 * j) ∨
    (b.busy = true ∧ b.writeSlot (slotAt words off) v = b.collide ∧
      (off = 0x010 ∨ ∃ (k : Reg) (j : Nat), j < words ∧
        off = 0x100 + 0x100 * k.val + 4 * j + off % 4)) ∨
    (b.busy = false ∧ off = 0x010 ∧ b.writeSlot (slotAt words off) v = b.accept v) ∨
    (off = 0x014 ∧ b.writeSlot (slotAt words off) v = b.statusWrite v) ∨
    (off = 0x018 ∧ v.getLsbD 1 = true ∧ b.writeSlot (slotAt words off) v = Block.reset w) ∨
    (off = 0x018 ∧ v.getLsbD 1 = false ∧
      b.writeSlot (slotAt words off) v = { b with irqEn := v.getLsbD 0 }) ∨
    (b.busy = false ∧ ∃ (k : Reg) (j : Nat), j < words ∧
      off = 0x100 + 0x100 * k.val + 4 * j + off % 4 ∧
      b.writeSlot (slotAt words off) v = b.setReg k (putWord (b.reg k) j v)) := by
  rcases slotAt_cases words off with ⟨ho, h⟩ | ⟨ho, h⟩ | ⟨ho, h⟩ | ⟨ho, h⟩ | ⟨ho, h⟩ | ⟨ho, h⟩ |
    ⟨k, j, h, hj, ho⟩ | ⟨h, hn, hd⟩
  · exact .inl ⟨by rw [h]; rfl, by simp [ho], by intro k j _ _; omega⟩
  · exact .inl ⟨by rw [h]; rfl, by simp [ho], by intro k j _ _; omega⟩
  · exact .inl ⟨by rw [h]; rfl, by simp [ho], by intro k j _ _; omega⟩
  · cases hb : b.busy
    · exact .inr (.inr (.inl ⟨rfl, ho, by rw [h]; simp [Block.writeSlot, hb]⟩))
    · exact .inr (.inl ⟨rfl, by rw [h]; simp [Block.writeSlot, hb], .inl ho⟩)
  · exact .inr (.inr (.inr (.inl ⟨ho, by rw [h]; rfl⟩)))
  · cases hv : v.getLsbD 1
    · exact .inr (.inr (.inr (.inr (.inr (.inl ⟨ho, rfl, by
        rw [h]; simp only [Block.writeSlot, Block.ctrlWrite, hv, Bool.false_eq_true, if_false]⟩)))))
    · exact .inr (.inr (.inr (.inr (.inl ⟨ho, rfl, by
        rw [h]; simp only [Block.writeSlot, Block.ctrlWrite, hv, if_true, Block.doReset]⟩))))
  · cases hb : b.busy
    · exact .inr (.inr (.inr (.inr (.inr (.inr ⟨rfl, k, j, hj, ho, by
        rw [h]; simp [Block.writeSlot, hb]⟩)))))
    · exact .inr (.inl ⟨rfl, by rw [h]; simp [Block.writeSlot, hb], .inr ⟨k, j, hj, ho⟩⟩)
  · refine .inl ⟨by rw [h]; rfl, ?_, hd⟩
    simp only [List.mem_cons, List.not_mem_nil, or_false, not_or] at hn ⊢
    omega

/-! ### Completion (R49, R50) -/

theorem Block.commit_nil {w : Nat} (b : Block w) : b.commit [] = b := rfl

theorem Block.commit_cons {w : Nat} (b : Block w) (r : Reg × BitVec w) (rs : List (Reg × BitVec w)) :
    b.commit (r :: rs) = (b.setReg r.1 r.2).commit rs := rfl

/-- A commit writes registers only. -/
theorem Block.commit_eq {w : Nat} (b : Block w) (rs : List (Reg × BitVec w)) :
    b.commit rs = { b with d := (b.commit rs).d } := by
  induction rs generalizing b with
  | nil => rfl
  | cons r rs ih => rw [Block.commit_cons, ih]; rfl

/-- A commit leaves every register it does not name. -/
theorem Block.reg_commit {w : Nat} (b : Block w) (rs : List (Reg × BitVec w)) (k : Reg)
    (h : k ∉ rs.map Prod.fst) : (b.commit rs).reg k = b.reg k := by
  induction rs generalizing b with
  | nil => rfl
  | cons r rs ih =>
    simp only [List.map_cons, List.mem_cons, not_or] at h
    rw [Block.commit_cons, ih _ h.2, Block.reg_setReg_ne _ _ (Ne.symm h.1)]

/-- Everything a completion can do to the block: on success the results and the success flags, on an
error the error flags alone. -/
theorem Block.complete_cases {w : Nat} (b : Block w) (r : Except ErrorCode (List (Reg × BitVec w))) :
    (∃ rs, r = .ok rs ∧ b.complete r =
      { b with d := (b.commit rs).d, busy := false, done := true, err := false, errcode := 0#4 }) ∨
      (∃ e, r = .error e ∧ b.complete r =
        { b with busy := false, done := true, err := true, errcode := e.code }) := by
  cases r with
  | ok rs =>
    refine .inl ⟨rs, rfl, ?_⟩
    rw [Block.complete, Block.commit_eq]
    rfl
  | error e => exact .inr ⟨e, rfl, rfl⟩

/-- Every error code is one of 1 to 6 (R92). -/
theorem ErrorCode.code_ne_zero (e : ErrorCode) : e.code ≠ 0#4 := by cases e <;> decide

theorem ErrorCode.code_le_six (e : ErrorCode) : e.code.toNat ≤ 6 := by cases e <;> decide

end Sys2Proof.Machine
end

