-- ==== Sys2Proof/Laws/Step.lean ====
section
/-! SUPPORT. Everything a step can do, said once: what a command's meaning answers, what a host's move
answers, and the cases of a step. -/

namespace Sys2Proof.Machine

/-- Every command's meaning is a completion of the block, with results for its destinations only, and
only KEYGEN takes draws (R18, R49). -/
theorem exec_cases (i : Instr) (s : State) :
    ∃ (r : Except ErrorCode (List (Reg × BitVec s.params.width))) (g : Rng),
      exec i s = .next { s with block := s.block.complete r, rng := g } ∧
        (∀ rs, r = .ok rs → rs.map Prod.fst = destinations i) ∧
        (g = s.rng ∨ ∃ fd0 fd1 fd2 fs0 fs1, i = .keygen fd0 fd1 fd2 fs0 fs1) := by
  cases i with
  | gcd fd0 fs0 fs1 =>
    refine ⟨gcdResult fd0 s.block.latch, s.rng, rfl, ?_, .inl rfl⟩
    rintro rs h
    simp only [gcdResult, Except.ok.injEq] at h
    subst h; rfl
  | xgcd hint fd0 fd1 fd2 fs0 fs1 =>
    refine ⟨xgcdResult fd0 fd1 fd2 s.block.latch, s.rng, rfl, ?_, .inl rfl⟩
    rintro rs h
    simp only [xgcdResult] at h
    split at h
    · cases h; rfl
    · cases h
  | modinv fd0 fs0 fs1 =>
    refine ⟨modinvResult fd0 s.block.latch, s.rng, rfl, ?_, .inl rfl⟩
    rintro rs h
    simp only [modinvResult] at h
    split at h
    · cases h
    · cases h; rfl
  | keygen fd0 fd1 fd2 fs0 fs1 =>
    refine ⟨keygenResult fd0 fd1 fd2 s.block.latch
      (keygenDraws s.params (uval s.block.latch.op0) (uval s.block.latch.op1) s.rng).1,
      (keygenDraws s.params (uval s.block.latch.op0) (uval s.block.latch.op1) s.rng).2, rfl, ?_,
      .inr ⟨fd0, fd1, fd2, fs0, fs1, rfl⟩⟩
    rintro rs h
    simp only [keygenResult] at h
    split at h
    · cases h
    · cases h; rfl
  | expmod fd0 fs0 fs1 fs2 =>
    refine ⟨expmodResult fd0 s.block.latch, s.rng, rfl, ?_, .inl rfl⟩
    rintro rs h
    simp only [expmodResult] at h
    split at h
    · cases h
    · cases h; rfl

/-- What fetching answers: a legal command, or the fault of a latch no acceptance has filled. -/
theorem fetch_cases (s : State) :
    (∃ i, fetch s = .ok i ∧ decode s.block.latch.cmd = .ok i ∧ i.wellFormed = true) ∨
      (fetch s = .error .illegalLatch ∧ legal s.block.latch.cmd = false) := by
  unfold fetch legal
  cases decode s.block.latch.cmd with
  | error e => exact .inr ⟨rfl, rfl⟩
  | ok i =>
    cases h : i.wellFormed
    · exact .inr ⟨by simp [h], by simp [h]⟩
    · exact .inl ⟨i, by simp [h], rfl, h⟩

theorem inWindow_iff (p : Params) (addr : Nat) :
    inWindow p addr = true ↔ p.base ≤ addr ∧ addr < p.base + 4096 := by
  simp [inWindow]

/-- Everything one operation of a host can do: leave the block and replace the host's record, stop
outside the window, or perform an aligned 32-bit write. -/
theorem performOp_cases (s : State) (n : Nat) (h : HostState) (op : HostOp) :
    performOp s n h op = .next s ∨
    (∃ h', performOp s n h op = .next (s.setHost n h') ∧ (h'.faulted = true → h.faulted = false →
      ∃ addr size, (op = .read addr size ∨ ∃ v, op = .write addr size v) ∧
        badAccess (addr - s.params.base) size = true)) ∨
    (performOp s n h op = .fault .outsideWindow ∧
      ∃ addr size, (op = .read addr size ∨ ∃ v, op = .write addr size v) ∧
        inWindow s.params addr = false) ∨
    (∃ addr v, op = .write addr 4 v ∧ s.params.base ≤ addr ∧ addr < s.params.base + 4096 ∧
      (addr - s.params.base) % 4 = 0 ∧
      performOp s n h op = .next ((s.withBlock
        (s.block.writeSlot (slotAt s.params.words (addr - s.params.base)) v)).setHost n h.opDone)) := by
  cases op with
  | read addr size =>
    cases hw : inWindow s.params addr
    · exact .inr (.inr (.inl ⟨by simp [performOp, hw], addr, size, .inl rfl, hw⟩))
    · refine .inr (.inl ?_)
      cases hb : badAccess (addr - s.params.base) size
      · refine ⟨h.opRead (s.block.readSlot s.params
          (slotAt s.params.words (addr - s.params.base))), by simp [performOp, hw, Block.hostRead, hb], ?_⟩
        intro h1 h2
        simp_all
      · exact ⟨h.opFault, by simp [performOp, hw, Block.hostRead, hb],
          fun _ _ => ⟨addr, size, .inl rfl, hb⟩⟩
  | write addr size v =>
    cases hw : inWindow s.params addr
    · exact .inr (.inr (.inl ⟨by simp [performOp, hw], addr, size, .inr ⟨v, rfl⟩, hw⟩))
    · cases hb : badAccess (addr - s.params.base) size
      · obtain ⟨rfl, hm⟩ := (goodAccess_iff _ _).1 hb
        obtain ⟨h1, h2⟩ := (inWindow_iff _ _).1 hw
        exact .inr (.inr (.inr ⟨addr, v, rfl, h1, h2, hm, by
          simp [performOp, hw, Block.hostWrite, hb]⟩))
      · exact .inr (.inl ⟨h.opFault, by simp [performOp, hw, Block.hostWrite, hb],
          fun _ _ => ⟨addr, size, .inr ⟨v, rfl⟩, hb⟩⟩)
  | wait =>
    cases hb : s.block.statusWord.getLsbD 0
    · refine .inr (.inl ⟨h.opRead s.block.statusWord, by simp only [performOp, hb]; rfl, ?_⟩)
      intro h1 h2
      simp_all
    · exact .inl (by simp only [performOp, hb]; rfl)
  | waitIrq =>
    cases hb : s.block.irq
    · exact .inl (by simp only [performOp, hb]; rfl)
    · refine .inr (.inl ⟨h.opDone, by simp only [performOp, hb]; rfl, ?_⟩)
      intro h1 h2
      simp_all

/-- Everything a step can do. -/
theorem step_cases (s : State) :
    (∃ hs, step s = .next { s with hosts := hs, schedule := s.schedule.tail }) ∨
    step s = .fault .outsideWindow ∨
    (∃ (n : Nat) (h : HostState) (addr : Nat) (v : Word) (ops : List HostOp),
      s.nextTurn = some (.host n) ∧ s.hosts[n]? = some h ∧ h.faulted = false ∧
      h.ops = .write addr 4 v :: ops ∧ s.params.base ≤ addr ∧ addr < s.params.base + 4096 ∧
      (addr - s.params.base) % 4 = 0 ∧
      step s = .next { s with
        block := s.block.writeSlot (slotAt s.params.words (addr - s.params.base)) v
        hosts := s.hosts.set n { h with ops := ops }
        schedule := s.schedule.tail }) ∨
    (s.nextTurn = some .engine ∧ s.block.busy = true ∧
      ∃ (i : Instr) (r : Except ErrorCode (List (Reg × BitVec s.params.width))) (g : Rng),
        decode s.block.latch.cmd = .ok i ∧ i.wellFormed = true ∧
        (∀ rs, r = .ok rs → rs.map Prod.fst = destinations i) ∧
        step s = .next { s with
          block := s.block.complete r
          rng := g
          schedule := s.schedule.tail }) ∨
    (s.nextTurn = some .engine ∧ s.block.busy = true ∧ legal s.block.latch.cmd = false ∧
      step s = .fault .illegalLatch) ∨
    (s.nextTurn = some .hardReset ∧ step s = .next { s with
      block := Block.reset s.params.width
      schedule := s.schedule.tail }) := by
  unfold step
  cases ht : s.nextTurn with
  | none =>
    refine .inl ⟨s.hosts, ?_⟩
    have hs : s.schedule = [] := by
      unfold State.nextTurn at ht
      cases h : s.schedule
      · rfl
      · simp [h] at ht
    have : s = { s with hosts := s.hosts, schedule := s.schedule.tail } := by
      obtain ⟨p, b, g, h, sch⟩ := s
      simp only at hs
      subst hs
      rfl
    simp only
    exact congrArg _ this
  | some t =>
    cases t with
    | hardReset => exact .inr (.inr (.inr (.inr (.inr ⟨rfl, rfl⟩))))
    | engine =>
      simp only [takeTurn, engineMove]
      by_cases hb : s.block.busy = true
      swap
      · exact .inl ⟨s.hosts, by rw [if_neg hb]⟩
      · rw [if_pos hb]
        rcases fetch_cases s.popTurn with ⟨i, hf, hd, hw⟩ | ⟨hf, hl⟩
        · obtain ⟨r, g, he, hr, -⟩ := exec_cases i s.popTurn
          refine .inr (.inr (.inr (.inl ⟨trivial, hb, i, r, g, hd, hw, hr, ?_⟩)))
          simp only [hf, he]
        · exact .inr (.inr (.inr (.inr (.inl ⟨trivial, hb, hl, by simp only [hf]⟩))))
    | host n =>
      simp only [takeTurn, hostMove]
      cases hh : s.hosts[n]? with
      | none => exact .inl ⟨s.hosts, rfl⟩
      | some h =>
        cases hf : h.faulted
        · cases ho : h.ops with
          | nil => exact .inl ⟨s.hosts, by simp [hf, ho]⟩
          | cons op ops =>
            simp only [hf, ho, Bool.false_eq_true, if_false]
            rcases performOp_cases s.popTurn n h op with h1 | ⟨h', h1, -⟩ | ⟨h1, -⟩ |
              ⟨addr, v, rfl, h2, h3, h4, h1⟩
            · exact .inl ⟨s.hosts, h1⟩
            · exact .inl ⟨s.hosts.set n h', h1⟩
            · exact .inr (.inl h1)
            · refine .inr (.inr (.inl ⟨n, h, addr, v, ops, rfl, hh, hf, ho, h2, h3, h4, ?_⟩))
              rw [h1]
              simp [State.withBlock, State.setHost, State.popTurn, HostState.opDone, ho]
        · exact .inl ⟨s.hosts, by simp [hf]⟩

end Sys2Proof.Machine
end

