-- ==== Sys2Proof/Laws/Duties.lean ====
section
/-! SUPPORT. What the ledger of a run can become, and what a step that keeps the duties can do. -/

namespace Sys2Proof.Machine

@[simp] theorem Ledger.setHost_keys (l : Ledger) (n : Nat) (d : HostDuty) :
    (l.setHost n d).keys = l.keys := rfl

@[simp] theorem Ledger.reset_keys (l : Ledger) : l.reset.keys = [] := rfl

@[simp] theorem Ledger.setHost_count (l : Ledger) (n : Nat) (d : HostDuty) :
    (l.setHost n d).count = l.count := rfl

@[simp] theorem Ledger.reset_count (l : Ledger) : l.reset.count = l.count := rfl

@[simp] theorem Ledger.addKey_keys (l : Ledger) (regs : List Reg) :
    (l.addKey regs).keys = { id := l.count, regs := regs } :: l.keys := rfl

@[simp] theorem Ledger.addKey_count (l : Ledger) (regs : List Reg) :
    (l.addKey regs).count = l.count + 1 := rfl

@[simp] theorem Ledger.retire_count (l : Ledger) (id : Nat) : (l.retire id).count = l.count := rfl

@[simp] theorem HostDuty.observe_awaiting (d : HostDuty) : d.observe.awaiting = none := rfl

@[simp] theorem HostDuty.seeReport_awaiting (d : HostDuty) : d.seeReport.awaiting = d.awaiting := rfl

@[simp] theorem HostDuty.dropReport_awaiting (d : HostDuty) (f : Bool) :
    (d.dropReport f).awaiting = d.awaiting := rfl

/-- A STATUS read discharges the waiting exactly when it shows DONE = 1 (R119). -/
@[simp] theorem HostDuty.readStatus_awaiting (d : HostDuty) (done : Bool) :
    (d.readStatus done).awaiting = if done then none else d.awaiting := by
  cases done <;> rfl

/-- An entry is never taken off the list of the ledger. -/
@[simp] theorem Ledger.setHost_length (l : Ledger) (n : Nat) (d : HostDuty) :
    (l.setHost n d).hosts.length = l.hosts.length := by
  simp [Ledger.setHost]

theorem Ledger.mem_keyRegs {l : Ledger} {r : Reg} : r ∈ l.keyRegs ↔ ∃ key ∈ l.keys, r ∈ key.regs := by
  simp [Ledger.keyRegs]

theorem Ledger.mem_keys_retire {l : Ledger} {id : Nat} {key : Key} (h : key ∈ (l.retire id).keys) :
    key ∈ l.keys := List.mem_of_mem_filter h

theorem Ledger.afterWrite_keys (l : Ledger) (s : State) (n : Nat) (t : Slot) (v : Word) :
    (l.afterWrite s n t v).keys = if t = .ctrl ∧ v.getLsbD 1 = true then [] else l.keys := by
  cases t <;> simp only [Ledger.afterWrite] <;> (repeat' split) <;> simp_all

theorem Ledger.afterWrite_count (l : Ledger) (s : State) (n : Nat) (t : Slot) (v : Word) :
    (l.afterWrite s n t v).count = l.count := by
  cases t <;> simp only [Ledger.afterWrite] <;> (repeat' split) <;> rfl

/-- A host's move makes no key, and ends the use of all of them or of none. -/
theorem Ledger.afterOp_keys (l : Ledger) (s : State) (n : Nat) (op : HostOp) :
    ((l.afterOp s n op).keys = l.keys ∨ (l.afterOp s n op).keys = []) ∧
      (l.afterOp s n op).count = l.count := by
  cases op with
  | write addr size v =>
    rw [Ledger.afterOp, Ledger.afterWrite_keys, Ledger.afterWrite_count]
    split
    · exact ⟨.inr rfl, rfl⟩
    · exact ⟨.inl rfl, rfl⟩
  | read addr size => simp only [Ledger.afterOp]; split <;> exact ⟨.inl rfl, rfl⟩
  | wait => simp only [Ledger.afterOp]; split <;> exact ⟨.inl rfl, rfl⟩
  | waitIrq => simp only [Ledger.afterOp]; split <;> exact ⟨.inl rfl, rfl⟩

/-- The engine's move only ever adds one key, under the next number. -/
theorem Ledger.afterEngine_cases (l : Ledger) (s t : State) :
    l.afterEngine s t = l ∨
      (s.block.busy = true ∧ ∃ regs : List Reg, l.afterEngine s t = l.addKey regs) := by
  unfold Ledger.afterEngine
  split
  · rename_i i _
    split
    · rename_i hb
      cases i with
      | keygen fd0 fd1 fd2 fs0 fs1 =>
        exact .inr ⟨by simp only [Bool.and_eq_true] at hb; exact hb.1, _, rfl⟩
      | gcd fd0 fs0 fs1 => exact .inl rfl
      | xgcd h fd0 fd1 fd2 fs0 fs1 => exact .inl rfl
      | modinv fd0 fs0 fs1 => exact .inl rfl
      | expmod fd0 fs0 fs1 fs2 => exact .inl rfl
    · exact .inl rfl
  · exact .inl rfl

/-- A key in use after a step was in use before it, or is a KEYGEN's under the next number; and numbers
never go back. -/
theorem Ledger.next_keys (l : Ledger) (s t : State) :
    l.count ≤ (l.next s t).count ∧ ∀ key ∈ (l.next s t).keys, key ∈ l.keys ∨
      (s.nextTurn = some .engine ∧ s.block.busy = true ∧ key.id = l.count ∧
        (l.next s t).count = l.count + 1) := by
  unfold Ledger.next
  split
  · exact ⟨le_rfl, fun key h => .inl h⟩
  · rename_i ht
    rcases l.afterEngine_cases s t with h | ⟨hb, regs, h⟩ <;> rw [h]
    · exact ⟨le_rfl, fun key hk => .inl hk⟩
    · refine ⟨Nat.le_succ _, fun key hk => ?_⟩
      rcases List.mem_cons.1 hk with rfl | hk
      · exact .inr ⟨ht, hb, rfl, rfl⟩
      · exact .inl hk
  · exact ⟨le_rfl, fun key h => by simp at h⟩
  · split
    · exact ⟨le_rfl, fun key h => .inl h⟩
    · split
      · exact ⟨le_rfl, fun key h => .inl h⟩
      · split
        · exact ⟨le_rfl, fun key h => .inl h⟩
        · rename_i n _ _ _ _ _ _ op _ _
          obtain ⟨h, hc⟩ := l.afterOp_keys s n op
          refine ⟨hc.ge, fun key hk => .inl ?_⟩
          rcases h with h | h <;> rw [h] at hk
          · exact hk
          · simp at hk

/-- The ledger after a host's write. -/
theorem Ledger.next_write {l : Ledger} {s t : State} {n : Nat} {h : HostState} {addr : Nat} {v : Word}
    {ops : List HostOp} (ht : s.nextTurn = some (.host n)) (hh : s.hosts[n]? = some h)
    (hf : h.faulted = false) (ho : h.ops = .write addr 4 v :: ops) :
    l.next s t = l.afterWrite s n (slotAt s.params.words (addr - s.params.base)) v := by
  simp [Ledger.next, ht, hh, hf, ho, Ledger.afterOp]

/-- Everything a dutiful host's write can do to the block: nothing, clear flags, set IRQ_EN, reset it and
end the use of every key, start a command that writes no key in use (or end in ILLEGAL_COMMAND), or write a
register that holds no key. -/
theorem dutiful_write_cases {c : Contract} {s : State} {l : Ledger} {n addr : Nat} {v : Word}
    (hd : opKeepsDuty c s l n (.write addr 4 v)) :
    (∃ b : Block s.params.width,
        s.block.writeSlot (slotAt s.params.words (addr - s.params.base)) v = b ∧ b.d = s.block.d ∧
        b.busy = s.block.busy ∧ b.latch = s.block.latch) ∨
      (slotAt s.params.words (addr - s.params.base) = .ctrl ∧ v.getLsbD 1 = true) ∨
      (∃ i, decode v = .ok i ∧ i.wellFormed = true ∧ (∀ k ∈ destinations i, k ∉ l.keyRegs) ∧
        s.block.writeSlot (slotAt s.params.words (addr - s.params.base)) v = s.block.acceptLegal v i) ∨
      (s.block.busy = false ∧ ∃ (k : Reg) (x : BitVec s.params.width), k ∉ l.keyRegs ∧
        s.block.writeSlot (slotAt s.params.words (addr - s.params.base)) v = s.block.setReg k x) := by
  obtain ⟨-, -, hcmd, hdata⟩ := hd
  cases ht : slotAt s.params.words (addr - s.params.base) with
  | cmd =>
    obtain ⟨hb, -, -, hi⟩ := hcmd ht
    have hw : s.block.writeSlot .cmd v = s.block.accept v := by simp [Block.writeSlot, hb]
    rcases s.block.accept_cases v with ⟨-, ha⟩ | ⟨-, i, h1, h2, ha⟩
    · exact .inl ⟨_, hw.trans ha, rfl, hb.symm, rfl⟩
    · exact .inr (.inr (.inl ⟨i, h1, h2, (hi i h1 h2).1, hw.trans ha⟩))
  | data k j =>
    obtain ⟨hb, -, hk⟩ := hdata k j ht
    exact .inr (.inr (.inr ⟨hb, k, _, hk, by simp only [Block.writeSlot, hb]; rfl⟩))
  | ctrl =>
    by_cases hv : v.getLsbD 1 = true
    · exact .inr (.inl ⟨rfl, hv⟩)
    · exact .inl ⟨{ s.block with irqEn := v.getLsbD 0 },
        by simp only [Block.writeSlot, Block.ctrlWrite, if_neg hv], rfl, rfl, rfl⟩
  | status => exact .inl ⟨s.block.statusWrite v, rfl, rfl, rfl, rfl⟩
  | id => exact .inl ⟨s.block, rfl, rfl, rfl, rfl⟩
  | cfg => exact .inl ⟨s.block, rfl, rfl, rfl, rfl⟩
  | maxtry => exact .inl ⟨s.block, rfl, rfl, rfl, rfl⟩
  | reserved => exact .inl ⟨s.block, rfl, rfl, rfl, rfl⟩

end Sys2Proof.Machine
end

