-- ==== Sys2Proof/Laws/PerInstr.lean ====
section
/-! SUPPORT. Per-command encoding facts, one lemma a constructor. -/

namespace Sys2Proof.Laws.EncodedFields

/-- The fields of a command's word (30_encoding.md rules R63, R66): its opcode, RSV = 0, and the source
fields that acceptance latches from are the command's own. -/
def Statement (i : Instr) : Prop :=
  opcField (encode i) = i.opcode ∧ rsvField (encode i) = 0#5 ∧
    fs0Field (encode i) = (Machine.sources i).1 ∧ fs1Field (encode i) = (Machine.sources i).2.1 ∧
    (Machine.sources i).2.2 = (if i.opcode = 0x05#8 then some (fs2Field (encode i)) else none)

theorem gcd (fd0 fs0 fs1 : Reg) : Statement (.gcd fd0 fs0 fs1) := by
  simp [Statement, encode, Machine.sources, Instr.opcode, opcField_packFields, rsvField_packFields,
    fs0Field_packFields, fs1Field_packFields]

theorem xgcd (h : Bool) (fd0 fd1 fd2 fs0 fs1 : Reg) : Statement (.xgcd h fd0 fd1 fd2 fs0 fs1) := by
  simp [Statement, encode, Machine.sources, Instr.opcode, opcField_packFields, rsvField_packFields,
    fs0Field_packFields, fs1Field_packFields]

theorem modinv (fd0 fs0 fs1 : Reg) : Statement (.modinv fd0 fs0 fs1) := by
  simp [Statement, encode, Machine.sources, Instr.opcode, opcField_packFields, rsvField_packFields,
    fs0Field_packFields, fs1Field_packFields]

theorem keygen (fd0 fd1 fd2 fs0 fs1 : Reg) : Statement (.keygen fd0 fd1 fd2 fs0 fs1) := by
  simp [Statement, encode, Machine.sources, Instr.opcode, opcField_packFields, rsvField_packFields,
    fs0Field_packFields, fs1Field_packFields]

theorem expmod (fd0 fs0 fs1 fs2 : Reg) : Statement (.expmod fd0 fs0 fs1 fs2) := by
  simp [Statement, encode, Machine.sources, Instr.opcode, opcField_packFields, rsvField_packFields,
    fs0Field_packFields, fs1Field_packFields, fs2Field_packFields]

end Sys2Proof.Laws.EncodedFields
end

