-- ==== Sys2Proof/Tests/Slice0.lean ====
section
/-! SUPPORT. Ill-formed terms, words written out from the spec, worked examples of 95_test_vectors.md, and
for every statement with hypotheses a concrete state and operands that meet them. -/

namespace Sys2Proof.Tests
open Sys2Proof.Machine

/-! ### Small states -/

/-- W = 64, MAX_E_TRIES = 1, BASE = 0x1000. -/
def wide : Params where
  words := 2
  maxTries := 1
  base := 0x1000
  words_ok := by decide
  maxTries_ok := by decide
  base_ok := by decide

/-- The reset block with the listed values in D0, D1, … -/
def blockOf (p : Params) (regs : List Nat) : Block p.width :=
  { Block.reset p.width with d := Vector.ofFn fun k => BitVec.ofNat p.width (regs.getD k.val 0) }

/-- An idle machine whose hosts are still to perform `scripts`. -/
def idle (p : Params) (regs : List Nat) (scripts : List (List HostOp)) : State where
  params := p
  block := blockOf p regs
  rng := { queue := [], count := 0 }
  hosts := scripts.map fun ops => { ops := ops, reads := [], faulted := false }
  schedule := []

/-- The machine after acceptance of `v`, with listed draws. -/
def running (p : Params) (regs : List Nat) (v : Word) (draws : List Nat)
    (scripts : List (List HostOp)) : State where
  params := p
  block := (blockOf p regs).accept v
  rng := { queue := draws, count := 0 }
  hosts := scripts.map fun ops => { ops := ops, reads := [], faulted := false }
  schedule := []

/-- D0 to D7 and STATUS of a next state. -/
def seen (o : Host.Outcome State Fault Refusal) : Option (List Nat × Nat) :=
  match o with
  | .next s => some (s.block.d.toList.map BitVec.toNat, s.block.statusWord.toNat)
  | .fault _ => none
  | .refused _ => none

/-- The reset instance's parameters: W = 32, MAX_E_TRIES = 4, BASE = 0. -/
abbrev narrow : Params := Config.params

/-! ### WellFormed: each check refuses a term (R67) -/

theorem test_wf_xgcd_fd0_fd1 : (Instr.xgcd true 2 2 4 0 1).wellFormed = false := by decide
theorem test_wf_xgcd_fd0_fd2 : (Instr.xgcd false 2 3 2 0 1).wellFormed = false := by decide
theorem test_wf_xgcd_fd1_fd2 : (Instr.xgcd true 2 3 3 0 1).wellFormed = false := by decide
theorem test_wf_keygen_fd0_fd1 : (Instr.keygen 2 2 3 0 1).wellFormed = false := by decide
theorem test_wf_keygen_fd0_fd2 : (Instr.keygen 2 3 2 0 1).wellFormed = false := by decide
theorem test_wf_keygen_fd1_fd2 : (Instr.keygen 0 7 7 0 1).wellFormed = false := by decide

/-! ### Decoding: OPC, H, RSV, FS2, FS1, FS0, FD2, FD1, FD0 written out bit by bit (R63, R66) -/

theorem test_decode_gcd :
    decode (0b00000001#8 ++ 0b0#1 ++ 0b00000#5 ++ 0b000#3 ++ 0b011#3 ++ 0b110#3 ++ 0b000#3 ++ 0b000#3 ++
      0b101#3) = .ok (.gcd 5 6 3) := by decide

theorem test_decode_xgcd :
    decode (0b00000010#8 ++ 0b1#1 ++ 0b00000#5 ++ 0b000#3 ++ 0b100#3 ++ 0b001#3 ++ 0b011#3 ++ 0b111#3 ++
      0b110#3) = .ok (.xgcd true 6 7 3 1 4) := by decide

theorem test_decode_xgcd_noy :
    decode (0b00000010#8 ++ 0b0#1 ++ 0b00000#5 ++ 0b000#3 ++ 0b100#3 ++ 0b001#3 ++ 0b011#3 ++ 0b111#3 ++
      0b110#3) = .ok (.xgcd false 6 7 3 1 4) := by decide

theorem test_decode_modinv :
    decode (0b00000011#8 ++ 0b0#1 ++ 0b00000#5 ++ 0b000#3 ++ 0b010#3 ++ 0b101#3 ++ 0b000#3 ++ 0b000#3 ++
      0b011#3) = .ok (.modinv 3 5 2) := by decide

theorem test_decode_keygen :
    decode (0b00000100#8 ++ 0b0#1 ++ 0b00000#5 ++ 0b000#3 ++ 0b110#3 ++ 0b101#3 ++ 0b100#3 ++ 0b011#3 ++
      0b010#3) = .ok (.keygen 2 3 4 5 6) := by decide

theorem test_decode_expmod :
    decode (0b00000101#8 ++ 0b0#1 ++ 0b00000#5 ++ 0b111#3 ++ 0b001#3 ++ 0b100#3 ++ 0b000#3 ++ 0b000#3 ++
      0b010#3) = .ok (.expmod 2 4 1 7) := by decide

/-- 95_test_vectors.md 2.6, the illegal words. -/
theorem test_illegal_words :
    ([0x00000000#32, 0x01801002#32, 0x01041002#32, 0x01001042#32, 0x01009002#32, 0x02001040#32,
      0x02801112#32, 0x0200911A#32, 0x03009005#32, 0x040010D2#32, 0x0480111A#32, 0x05013A46#32,
      0x06000000#32, 0xFF000000#32].all fun v => !legal v) = true := by decide

/-- 95_test_vectors.md 2.6, the legal words. -/
theorem test_legal_words :
    ([0x01001002#32, 0x0280111A#32, 0x0200111A#32, 0x03001005#32, 0x0400111A#32, 0x05013A06#32,
      0x05014C07#32, 0x05000000#32].all legal) = true := by decide

/-- The refusals carry the name of what is wrong. -/
theorem test_decode_refusals :
    decode 0x06000000#32 = .error .opcode ∧ decode 0x01041002#32 = .error .reserved ∧
      decode 0x01801002#32 = .error .hint ∧ decode 0x01001042#32 = .error .unusedDest ∧
      decode 0x01009002#32 = .error .unusedSource := by decide

/-- A line of text with blanks and mixed case (R71), and its word. -/
theorem test_assemble :
    (parseLine [' ', 'x', 'G', 'c', 'D', ' ', 'd', '2', ' ', ',', 'D', '3', ',', ' ', 'd', '4', ',', 'd',
      '0', ',', 'd', '1']).bind AsmLine.assemble = some 0x0280111A#32 := by decide

/-! ### Worked examples (95_test_vectors.md parts 1 and 2), one step each -/

theorem test_gcd_12_18 : seen (step (running narrow [12, 18] 0x01001000#32 [] [])) =
    some ([6, 18, 0, 0, 0, 0, 0, 0], 0x2) := by decide
theorem test_gcd_fibonacci : seen (step (running narrow [1836311903, 2971215073] 0x01001002#32 [] [])) =
    some ([1836311903, 2971215073, 1, 0, 0, 0, 0, 0], 0x2) := by decide
theorem test_xgcd_240_46 : seen (step (running narrow [240, 46] 0x0280111A#32 [] [])) =
    some ([240, 46, 2, 0xFFFFFFF7, 0x2F, 0, 0, 0], 0x2) := by decide
theorem test_xgcd_noy_0_0 : seen (step (running narrow [0, 0] 0x0200111A#32 [] [])) =
    some ([0, 0, 0, 0, 1, 0, 0, 0], 0x2) := by decide
theorem test_modinv_aliased : seen (step (running narrow [17, 3120] 0x03001000#32 [] [])) =
    some ([2753, 3120, 0, 0, 0, 0, 0, 0], 0x2) := by decide
theorem test_modinv_no_inverse : seen (step (running narrow [4, 8] 0x03001005#32 [] [])) =
    some ([4, 8, 0, 0, 0, 0, 0, 0], 0x16) := by decide
theorem test_keygen_61_53 : seen (step (running narrow [61, 53] 0x0400111A#32 [6, 17] [])) =
    some ([61, 53, 3233, 17, 2753, 0, 0, 0], 0x2) := by decide
theorem test_keygen_exhausted : seen (step (running narrow [61, 53] 0x0400111A#32 [6, 10, 15, 2] [])) =
    some ([61, 53, 0, 0, 0, 0, 0, 0], 0x66) := by decide
theorem test_expmod_encrypt :
    seen (step (running narrow [0, 0, 3233, 17, 0, 65] 0x05013A06#32 [] [])) =
      some ([0, 0, 3233, 17, 0, 65, 2790, 0], 0x2) := by decide
theorem test_expmod_zero_modulus : seen (step (running narrow [7, 3, 0, 9] 0x05011003#32 [] [])) =
    some ([7, 3, 0, 9, 0, 0, 0, 0], 0x46) := by decide

/-- 95_test_vectors.md 2.7: STATUS write-1-to-clear. -/
theorem test_status_write :
    ((({ blockOf narrow [] with done := true, err := true, errcode := 1#4 } : Block 32).statusWrite
      0x2#32).statusWord = 0x14#32) ∧
      ((({ blockOf narrow [] with done := true, err := true, errcode := 1#4 } : Block 32).statusWrite
        0x4#32).statusWord = 0x2#32) := by decide

/-- 95_test_vectors.md 2.7: reads from the reset state. -/
theorem test_reset_reads :
    ([0x000, 0x004, 0x008, 0x00C, 0x010, 0x014, 0x018, 0x100, 0x104, 0x900].map fun off =>
      (Block.reset narrow.width).hostRead narrow off 4) =
      [some 0x58474344#32, some 0x00200801#32, some 4#32, some 0#32, some 0#32, some 0#32, some 0#32,
        some 0#32, some 0#32, some 0#32] := by decide

/-- A host script runs from the reset state: P2's first command with its wait (95_test_vectors.md P2). -/
theorem test_script_expands :
    (expandScript narrow [.wr 0 240, .issue { mnemonic := .xgcd, regs := [2, 3, 4, 0, 1] }, .clear]) =
      some [.write 0x100 4 240#32, .write 0x010 4 0x0280111A#32, .write 0x014 4 0x106#32] := by decide

/-! ### Witnesses: for each statement with hypotheses, a state and operands that meet them -/

/-- A word with every register field at 7. -/
theorem witness_EncodeOfDecodeIsTheWord : decode 0x0503FE07#32 = .ok (.expmod 7 7 7 7) := by decide

/-- The two ends of the opcodes that are no row's. -/
theorem witness_RowShapesAreTheirMatchAndMask :
    (0x00FFFFFF#32 : Word).extractLsb' 24 8 = 0#8 ∧
      5 < ((0x06000000#32 : Word).extractLsb' 24 8).toNat ∧
      5 < ((0xFF000000#32 : Word).extractLsb' 24 8).toNat := by decide

/-- Each clause's offset: a bad size, a bad alignment, the last data word, and reserved offsets beside the
map's edges. -/
theorem witness_HostReadsFollowTheMap :
    (2 ≠ 4 ∨ 0x014 % 4 ≠ 0) ∧ (4 ≠ 4 ∨ 0x002 % 4 ≠ 0) ∧
      (1 < wide.words ∧ 0x804 = 0x100 + 0x100 * (7 : Reg).val + 4 * 1 ∧ 0x804 % 4 = 0) ∧
      ∀ off ∈ [0x00C, 0x01C, 0x0FC, 0x108, 0x808, 0x900, 0xFFC],
        off % 4 = 0 ∧ off ∉ [0x000, 0x004, 0x008, 0x010, 0x014, 0x018] ∧
          ∀ k : Reg, ∀ j < wide.words, off ≠ 0x100 + 0x100 * k.val + 4 * j := by decide

theorem witness_WindowBytesAreLittleEndian :
    0 < 4 * narrow.words ∧ 3 < 4 * narrow.words ∧ 7 < 4 * wide.words := by decide

theorem witness_HostWritesFollowTheMap :
    (8 ≠ 4 ∨ 0x010 % 4 ≠ 0) ∧ (4 ≠ 4 ∨ 0x101 % 4 ≠ 0) ∧ (0x3#32 : Word).getLsbD 1 = true ∧
      (0x1#32 : Word).getLsbD 1 = false ∧
      ∀ off ∈ [0x000, 0x004, 0x008, 0x00C, 0x0FC, 0x108, 0x900, 0xFFC],
        off % 4 = 0 ∧ off ∉ [0x010, 0x014, 0x018] ∧
          ∀ k : Reg, ∀ j < wide.words, off ≠ 0x100 + 0x100 * k.val + 4 * j := by decide

theorem witness_IdleDataWriteReplacesOneWord :
    (blockOf wide [5]).busy = false ∧ 0 < wide.words ∧ 1 < wide.words := by decide

theorem witness_DataWordReadsBackAndOthersKeep :
    (blockOf wide [5]).busy = false ∧ 1 < wide.words ∧
      ∃ c, (blockOf wide [5]).hostWrite wide (0x100 + 0x100 * (7 : Reg).val + 4 * 1) 4 9#32 = some c :=
  ⟨by decide, by decide, _, rfl⟩

theorem witness_CmdWriteWhileIdleAccepts :
    (blockOf narrow [5]).busy = false ∧ legal 0x02001040#32 = false ∧ legal 0x0503FE07#32 = true := by
  decide

theorem witness_WritesWhileBusyAreDropped :
    ((blockOf wide [5]).accept 0x01001002#32).busy = true ∧ 1 < wide.words ∧
      (0x1#32 : Word).getLsbD 1 = false ∧ (0x2#32 : Word).getLsbD 1 = true := by decide

/-- Both ends of the window, a byte access and a misaligned one, on the schedule and by the default order;
and a run on from a fault. -/
theorem witness_BusErrorIsAHostFaultForEver :
    ({ idle wide [] [[.read 0x1000 1], [.write 0x1FFF 4 5#32]] with
        schedule := [.host 1, .host 0] } : State).nextTurn = some (.host 1) ∧
      (idle wide [] [[.read 0x1000 1]]).nextTurn = some (.host 0) ∧
      (1 ≠ 4 ∨ (0x1000 - wide.base) % 4 ≠ 0) ∧ (4 ≠ 4 ∨ (0x1FFF - wide.base) % 4 ≠ 0) ∧
      wide.base ≤ 0x1000 ∧ 0x1FFF < wide.base + 4096 ∧
      ∃ t h, Reaches (idle wide [] [[.read 0x1000 1]]) t ∧ t.hosts[0]? = some h ∧ h.faulted = true :=
  ⟨by decide, by decide, by decide, by decide, by decide, by decide, _, _,
    .tail (.refl _) (show step (idle wide [] [[.read 0x1000 1]]) = .next _ from rfl), rfl, rfl⟩

/-- The addresses just outside the window. -/
theorem witness_AccessOutsideTheWindowStops :
    ({ idle wide [] [[.read 0xFFC 4]] with schedule := [.host 0] } : State).schedule.head? =
        some (.host 0) ∧
      (0xFFC < wide.base ∨ wide.base + 4096 ≤ 0xFFC) ∧
      (0x2000 < wide.base ∨ wide.base + 4096 ≤ 0x2000) := by decide

theorem witness_ReadsHaveNoSideEffect :
    ({ idle wide [7] [[.read 0x1100 4]] with schedule := [.host 0] } : State).schedule.head? =
        some (.host 0) ∧
      (idle wide [7] [[.read 0x1100 4]]).hosts[0]? =
        some { ops := [.read 0x1100 4], reads := [], faulted := false } ∧
      wide.base ≤ 0x1100 ∧ 0x1100 < wide.base + 4096 ∧
      (blockOf wide [7]).hostRead wide (0x1100 - wide.base) 4 = some 7#32 := by decide

theorem witness_XgcdFollowsItsRecursion : 0 < 46 ∧ xgcd (240 % 46) 46 = (2, -9, 2) := by decide

theorem witness_XgcdWritesTheBezoutTriple :
    xgcd (uval (running narrow [240, 46] 0x0280111A#32 [] []).block.latch.op0)
      (uval (running narrow [240, 46] 0x0280111A#32 [] []).block.latch.op1) = (2, -9, 47) := by decide

theorem witness_XgcdResultsSatisfyBezout : (Instr.xgcd true 2 3 4 0 1).wellFormed = true := by decide

theorem witness_HintNeverChangesAResult :
    (0x0280111A#32 : Word).getLsbD 23 = true ∧ legal 0x0280111A#32 = true := by decide

/-- gcd ≠ 1 (also with m = 0); a = 1 with m = 0; and a modulus m = 1 and m = 3120. -/
theorem witness_ModinvWritesTheInverseOrReportsWhy :
    Nat.gcd 4 8 ≠ 1 ∧ Nat.gcd 2 0 ≠ 1 ∧ Nat.gcd 1 0 = 1 ∧ (Nat.gcd 0 1 = 1 ∧ 0 < 1) ∧
      (Nat.gcd 17 3120 = 1 ∧ 0 < 3120) ∧
      uval (running narrow [17, 3120] 0x03001005#32 [] []).block.latch.op0 = 17 ∧
      uval (running narrow [17, 3120] 0x03001005#32 [] []).block.latch.op1 = 3120 := by decide

/-- The smallest modulus, and a usual one. -/
theorem witness_ModinvResultIsTheUniqueInverse :
    uval (running narrow [5, 1] 0x03001005#32 [] []).block.latch.op0 = 5 ∧
      uval (running narrow [5, 1] 0x03001005#32 [] []).block.latch.op1 = 1 ∧ Nat.gcd 5 1 = 1 ∧ 0 < 1 ∧
      uval (running narrow [17, 3120] 0x03001005#32 [] []).block.latch.op1 = 3120 ∧
      Nat.gcd 17 3120 = 1 := by decide

/-- MAX_E_TRIES draws, the last of them accepted; and the largest exponent, with the largest modulus. -/
theorem witness_KeygenWritesTheKeyOfItsDraws :
    (uval (running narrow [61, 53] 0x0400111A#32 [6, 10, 15, 17] []).block.latch.op0 = 61 ∧
      uval (running narrow [61, 53] 0x0400111A#32 [6, 10, 15, 17] []).block.latch.op1 = 53 ∧
      61 ≠ 53 ∧ ((61 : Nat) - 1 : Int) * ((53 : Nat) - 1 : Int) = (3120 : Nat) ∧ 3 ≤ 3120 ∧
      61 * 53 < 2 ^ narrow.width ∧
      (running narrow [61, 53] 0x0400111A#32 [6, 10, 15, 17] []).rng.queue = [6, 10, 15] ++ 17 :: [] ∧
      [6, 10, 15].length + 1 ≤ narrow.maxTries ∧
      (∀ r ∈ [6, 10, 15], 2 ≤ r ∧ r ≤ 3120 - 1 ∧ Nat.gcd r 3120 ≠ 1) ∧
      2 ≤ 17 ∧ 17 ≤ 3120 - 1 ∧ Nat.gcd 17 3120 = 1) ∧
      65535 ≠ 65537 ∧ ((65535 : Nat) - 1 : Int) * ((65537 : Nat) - 1 : Int) = (4294836224 : Nat) ∧
      65535 * 65537 < 2 ^ narrow.width ∧ 4294836223 ≤ 4294836224 - 1 ∧
      Nat.gcd 4294836223 4294836224 = 1 := by decide

/-- p = q, φ = 2 and φ < 0 are guarded; φ = 3 is not. -/
theorem witness_KeygenGuardsItsParameters :
    (7 = 7 ∨ ((7 : Nat) - 1 : Int) * ((7 : Nat) - 1 : Int) < 3) ∧
      (2 = 3 ∨ ((2 : Nat) - 1 : Int) * ((3 : Nat) - 1 : Int) < 3) ∧
      (0 = 5 ∨ ((0 : Nat) - 1 : Int) * ((5 : Nat) - 1 : Int) < 3) ∧
      ¬ (2 = 4 ∨ ((2 : Nat) - 1 : Int) * ((4 : Nat) - 1 : Int) < 3) ∧
      uval (running narrow [2, 4] 0x0400111A#32 [] []).block.latch.op0 = 2 ∧
      uval (running narrow [2, 4] 0x0400111A#32 [] []).block.latch.op1 = 4 := by decide

theorem witness_KeygenReportsRangeWhenTheModulusDoesNotFit :
    uval (running narrow [65536, 65537] 0x0400111A#32 [] []).block.latch.op0 = 65536 ∧
      uval (running narrow [65536, 65537] 0x0400111A#32 [] []).block.latch.op1 = 65537 ∧
      65536 ≠ 65537 ∧ 3 ≤ ((65536 : Nat) - 1 : Int) * ((65537 : Nat) - 1 : Int) ∧
      2 ^ narrow.width ≤ 65536 * 65537 ∧
      65535 ≠ 65537 ∧ 3 ≤ ((65535 : Nat) - 1 : Int) * ((65537 : Nat) - 1 : Int) ∧
      65535 * 65537 < 2 ^ narrow.width := by decide

theorem witness_KeygenReportsRetryExhausted :
    uval (running narrow [61, 53] 0x0400111A#32 [6, 10, 15, 2, 17] []).block.latch.op0 = 61 ∧
      uval (running narrow [61, 53] 0x0400111A#32 [6, 10, 15, 2, 17] []).block.latch.op1 = 53 ∧
      61 ≠ 53 ∧ ((61 : Nat) - 1 : Int) * ((53 : Nat) - 1 : Int) = (3120 : Nat) ∧
      61 * 53 < 2 ^ narrow.width ∧
      (running narrow [61, 53] 0x0400111A#32 [6, 10, 15, 2, 17] []).rng.queue =
        [6, 10, 15, 2] ++ [17] ∧
      [6, 10, 15, 2].length = narrow.maxTries ∧
      ∀ r ∈ [6, 10, 15, 2], 2 ≤ r ∧ r ≤ 3120 - 1 ∧ Nat.gcd r 3120 ≠ 1 := by decide

/-- The three shapes of R86 (42_key_generator.md): (a) no draw, (b) the last accepted, (c) all rejected. -/
theorem witness_KeygenDrawsAreExactlyTheAdmittedLists :
    admittedDraws narrow 2 3 [] ∧ admittedDraws narrow 61 53 [6, 17] ∧
      admittedDraws narrow 61 53 [6, 10, 15, 2] :=
  ⟨rfl, ⟨by decide, .inl ⟨[6], 17, rfl, by decide, by decide, by decide⟩⟩,
    ⟨by decide, .inr ⟨rfl, by decide⟩⟩⟩

theorem witness_KeygenSuccessIsAValidKey :
    (Instr.keygen 2 3 4 0 1).wellFormed = true ∧
      uval (running narrow [61, 53] 0x0400111A#32 [6, 17] []).block.latch.op0 = 61 ∧
      uval (running narrow [61, 53] 0x0400111A#32 [6, 17] []).block.latch.op1 = 53 ∧
      ∃ (b : Block narrow.width) (g : Rng),
        exec (.keygen 2 3 4 0 1) (running narrow [61, 53] 0x0400111A#32 [6, 17] []) = .next
          { running narrow [61, 53] 0x0400111A#32 [6, 17] [] with block := b, rng := g } ∧
          b.err = false :=
  ⟨by decide, by decide, by decide, _, _, rfl, by decide⟩

/-- Modulus 0; the smallest and a usual modulus, and exponent 0. -/
theorem witness_ExpmodWritesThePowerOrReportsZeroModulus :
    uval (running narrow [7, 3, 0] 0x05011003#32 [] []).block.latch.op2 = 0 ∧
      uval (running narrow [0, 0, 1] 0x05011003#32 [] []).block.latch.op1 = 0 ∧
      uval (running narrow [0, 0, 1] 0x05011003#32 [] []).block.latch.op2 ≠ 0 ∧
      uval (running narrow [65, 17, 3233] 0x05011003#32 [] []).block.latch.op0 = 65 := by decide

/-- p = 61 and q = 53, the message 65 (95_test_vectors.md P1): the second EXPMOD's operand is what the
first one left. -/
theorem witness_RsaMessagesRoundTrip :
    Nat.Prime 61 ∧ Nat.Prime 53 ∧
      uval (running narrow [61, 53] 0x0400111A#32 [6, 17] []).block.latch.op0 = 61 ∧
      uval (running narrow [61, 53] 0x0400111A#32 [6, 17] []).block.latch.op1 = 53 ∧
      ∃ (b : Block narrow.width) (g : Rng) (b1 : Block narrow.width),
        exec (.keygen 2 3 4 0 1) (running narrow [61, 53] 0x0400111A#32 [6, 17] []) = .next
          { running narrow [61, 53] 0x0400111A#32 [6, 17] [] with block := b, rng := g } ∧
          b.err = false ∧
          exec (.expmod 6 0 1 2) (running narrow [65, 17, 3233] 0x05011006#32 [] []) = .next
            { running narrow [65, 17, 3233] 0x05011006#32 [] [] with block := b1 } ∧
          uval (running narrow [65, 17, 3233] 0x05011006#32 [] []).block.latch.op0 < uval (b.reg 2) ∧
          uval (running narrow [65, 17, 3233] 0x05011006#32 [] []).block.latch.op1 = uval (b.reg 3) ∧
          uval (running narrow [65, 17, 3233] 0x05011006#32 [] []).block.latch.op2 = uval (b.reg 2) ∧
          uval (running narrow [uval (b1.reg 6), 2753, 3233] 0x05011007#32 [] []).block.latch.op0 =
            uval (b1.reg 6) ∧
          uval (running narrow [uval (b1.reg 6), 2753, 3233] 0x05011007#32 [] []).block.latch.op1 =
            uval (b.reg 4) ∧
          uval (running narrow [uval (b1.reg 6), 2753, 3233] 0x05011007#32 [] []).block.latch.op2 =
            uval (b.reg 2) :=
  ⟨by norm_num, by norm_num, by decide, by decide, _, _, _, rfl, by decide, rfl, by decide, by decide,
    by decide, by decide, by decide, by decide⟩

/-- Offsets at the edges of what the frame covers, a register that is no destination, and an error end. -/
theorem witness_EveryCommandEndsAndKeepsItsFrame :
    (∀ off ∈ [0x000, 0x013, 0x018, 0x7FF, 0x900, 0xFFF], off < 4096 ∧ off / 4 ≠ 0x014 / 4 ∧
      ∀ k ∈ destinations (.gcd 7 0 1), off / 0x100 ≠ k.val + 1) ∧
      (6 : Reg) ∉ destinations (.gcd 7 0 1) ∧
      ∃ (b : Block narrow.width) (g : Rng),
        exec (.expmod 3 0 1 2) (running narrow [7, 3, 0] 0x05011003#32 [] []) = .next
          { running narrow [7, 3, 0] 0x05011003#32 [] [] with block := b, rng := g } ∧ b.err = true :=
  ⟨by decide, by decide, _, _, rfl, by decide⟩

theorem witness_CommandsReportOnlyTheirErrorCodes :
    ∃ (b : Block narrow.width) (g : Rng),
      exec (.modinv 5 0 1) (running narrow [4, 8] 0x03001005#32 [] []) = .next
        { running narrow [4, 8] 0x03001005#32 [] [] with block := b, rng := g } ∧ b.errcode = 1#4 :=
  ⟨_, _, rfl, by decide⟩

theorem witness_StepCompletesTheLatchedCommand :
    (running narrow [12, 18] 0x01001000#32 [] []).nextTurn = some .engine ∧
      (running narrow [12, 18] 0x01001000#32 [] []).block.busy = true ∧
      decode (running narrow [12, 18] 0x01001000#32 [] []).block.latch.cmd = .ok (.gcd 0 0 1) ∧
      (Instr.gcd 0 0 1).wellFormed = true := by decide

theorem witness_FetchedWordRunsNext : (Instr.keygen 2 3 4 0 1).wellFormed = true := by decide

theorem witness_IssueThenCompleteRunsTheCommand :
    ({ idle wide [12, 18] [[.write 0x1010 4 0x01001000#32]] with
        schedule := [.host 0, .engine] } : State).schedule = .host 0 :: .engine :: [] ∧
      (idle wide [12, 18] [[.write 0x1010 4 0x01001000#32]]).hosts[0]? =
        some { ops := .write (wide.base + 0x010) 4 0x01001000#32 :: [], reads := [], faulted := false } ∧
      (idle wide [12, 18] [[.write 0x1010 4 0x01001000#32]]).block.busy = false ∧
      decode 0x01001000#32 = .ok (.gcd 0 0 1) := by decide

/-- What acceptance of a GCD leaves meets the invariant. -/
theorem accepted_gcd_ok : ((blockOf narrow [12, 18]).accept 0x01001000#32).busyOk ∧
    ((blockOf narrow [12, 18]).accept 0x01001000#32).errOk :=
  ⟨fun _ => ⟨by decide, by decide, by decide, by decide, .gcd 0 0 1, by decide, by decide, by decide⟩,
    by decide, by decide⟩

theorem running_gcd_inv (scripts : List (List HostOp)) :
    (running narrow [12, 18] 0x01001000#32 [] scripts).Inv := accepted_gcd_ok

theorem witness_EveryStepKeepsTheInvariant :
    (running narrow [12, 18] 0x01001000#32 [] []).Inv ∧
      ∃ t, step (running narrow [12, 18] 0x01001000#32 [] []) = .next t :=
  ⟨running_gcd_inv [], _, rfl⟩

theorem witness_GoodStatesNeverStopOnACommand : (running narrow [12, 18] 0x01001000#32 [] []).Inv :=
  running_gcd_inv []

theorem witness_NoStepChangesTheParameters :
    ∃ t, step (running narrow [12, 18] 0x01001000#32 [] []) = .next t := ⟨_, rfl⟩

theorem witness_ResetLeavesTheResetValues :
    ({ running narrow [12, 18] 0x01001000#32 [] [] with schedule := [.hardReset] } :
        State).schedule.head? = some .hardReset ∧ (0x2#32 : Word).getLsbD 1 = true := by decide

theorem witness_SoftResetRacesCompleteEitherWay :
    (running narrow [12, 18] 0x01001000#32 [] [[.write 0x018 4 2#32]]).Inv ∧
      (running narrow [12, 18] 0x01001000#32 [] [[.write 0x018 4 2#32]]).block.busy = true ∧
      (running narrow [12, 18] 0x01001000#32 [] [[.write 0x018 4 2#32]]).hosts[0]? =
        some { ops := .write (narrow.base + 0x018) 4 2#32 :: [], reads := [], faulted := false } ∧
      (2#32 : Word).getLsbD 1 = true :=
  ⟨running_gcd_inv _, by decide, by decide, by decide⟩

theorem witness_CmdWriteRacesComplete :
    (running narrow [12, 18] 0x01001000#32 [] [[.write 0x010 4 0x01001002#32]]).Inv ∧
      (running narrow [12, 18] 0x01001000#32 [] [[.write 0x010 4 0x01001002#32]]).block.busy = true ∧
      (running narrow [12, 18] 0x01001000#32 [] [[.write 0x010 4 0x01001002#32]]).hosts[0]? =
        some { ops := .write (narrow.base + 0x010) 4 0x01001002#32 :: [], reads := [],
               faulted := false } :=
  ⟨running_gcd_inv _, by decide, by decide⟩

/-- The racing write goes to D0, which the running GCD writes. -/
theorem witness_DataWriteRacesComplete :
    (running narrow [12, 18] 0x01001000#32 [] [[.write 0x100 4 5#32]]).Inv ∧
      (running narrow [12, 18] 0x01001000#32 [] [[.write 0x100 4 5#32]]).block.busy = true ∧
      (running narrow [12, 18] 0x01001000#32 [] [[.write 0x100 4 5#32]]).hosts[0]? =
        some { ops := .write (narrow.base + (0x100 + 0x100 * (0 : Reg).val + 4 * 0)) 4 5#32 :: [],
               reads := [], faulted := false } ∧ 0 < narrow.words :=
  ⟨running_gcd_inv _, by decide, by decide, by decide⟩

theorem witness_DoneClearRacesComplete :
    (running narrow [12, 18] 0x01001000#32 [] [[.write 0x014 4 2#32]]).Inv ∧
      (running narrow [12, 18] 0x01001000#32 [] [[.write 0x014 4 2#32]]).block.busy = true ∧
      (running narrow [12, 18] 0x01001000#32 [] [[.write 0x014 4 2#32]]).hosts[0]? =
        some { ops := .write (narrow.base + 0x014) 4 2#32 :: [], reads := [], faulted := false } ∧
      (2#32 : Word).getLsbD 1 = true :=
  ⟨running_gcd_inv _, by decide, by decide, by decide⟩

theorem witness_IrqIsEnabledCompletion :
    (∃ (b : Block narrow.width) (g : Rng),
      exec (.gcd 0 0 1) (running narrow [12, 18] 0x01001000#32 [] []) = .next
        { running narrow [12, 18] 0x01001000#32 [] [] with block := b, rng := g }) ∧
      (blockOf narrow []).busy = false ∧ (0x2#32 : Word).getLsbD 1 = true ∧
      (0x1#32 : Word).getLsbD 1 = false :=
  ⟨⟨_, _, rfl⟩, by decide, by decide, by decide⟩

/-- D0 changes by a reset, by a host's write while idle, and by a completion. -/
theorem witness_DataRegistersChangeOnlyAsTheRulesSay :
    (∃ b : Block narrow.width,
      step { idle narrow [5] [] with schedule := [.hardReset] } = .next
        { idle narrow [5] [] with block := b, schedule := [] } ∧ b.reg 0 ≠ (blockOf narrow [5]).reg 0) ∧
      (∃ (b : Block narrow.width) (hs : List HostState),
        step (idle narrow [5] [[.write 0x100 4 6#32]]) = .next
          { idle narrow [5] [] with block := b, hosts := hs } ∧
          b.reg 0 ≠ (blockOf narrow [5]).reg 0) ∧
      ∃ b : Block narrow.width,
        step (running narrow [12, 18] 0x01001000#32 [] []) = .next
          { running narrow [12, 18] 0x01001000#32 [] [] with block := b } ∧
          b.reg 0 ≠ (blockOf narrow [12, 18]).reg 0 :=
  ⟨⟨_, rfl, by decide⟩, ⟨_, _, rfl, by decide⟩, ⟨_, rfl, by decide⟩⟩

theorem witness_BusyFollowsAcceptanceAndCompletion :
    (∃ (b : Block narrow.width) (hs : List HostState),
      step (idle narrow [12, 18] [[.write 0x010 4 0x01001000#32]]) = .next
        { idle narrow [12, 18] [] with block := b, hosts := hs } ∧
        (blockOf narrow [12, 18]).busy = false ∧ b.busy = true) ∧
      ∃ b : Block narrow.width,
        step (running narrow [12, 18] 0x01001000#32 [] []) = .next
          { running narrow [12, 18] 0x01001000#32 [] [] with block := b } ∧
          (running narrow [12, 18] 0x01001000#32 [] []).block.busy = true ∧ b.busy = false :=
  ⟨⟨_, _, rfl, by decide, by decide⟩, ⟨_, rfl, by decide, by decide⟩⟩

/-- A running GCD, COLL set, and host 0 about to perform `op`. -/
def collided (op : HostOp) : State :=
  { running narrow [12, 18] 0x01001000#32 [] [[op]] with
    block := (running narrow [12, 18] 0x01001000#32 [] [[op]]).block.collide, schedule := [.host 0] }

theorem witness_CollIsSticky :
    (∃ (b : Block narrow.width) (hs : List HostState),
      step { running narrow [12, 18] 0x01001000#32 [] [[.write 0x100 4 5#32]] with
          schedule := [.host 0] } = .next
        { running narrow [12, 18] 0x01001000#32 [] [] with block := b, hosts := hs } ∧
        (running narrow [12, 18] 0x01001000#32 [] []).block.coll = false ∧ b.coll = true) ∧
      ∃ (b : Block narrow.width) (hs : List HostState),
        step (collided (.write 0x014 4 0x100#32)) = .next
          { running narrow [12, 18] 0x01001000#32 [] [] with block := b, hosts := hs } ∧
          (collided (.write 0x014 4 0x100#32)).block.coll = true ∧ b.coll = false :=
  ⟨⟨_, _, rfl, by decide, by decide⟩, ⟨_, _, rfl, by decide, by decide⟩⟩

theorem witness_RunningCommandIsIsolated :
    (collided (.write 0x108 4 5#32)).block.busy = true ∧
      (collided (.write 0x108 4 5#32)).nextTurn ≠ some .engine ∧
      ∃ (b : Block narrow.width) (hs : List HostState),
        step (collided (.write 0x108 4 5#32)) = .next
          { running narrow [12, 18] 0x01001000#32 [] [] with block := b, hosts := hs } :=
  ⟨by decide, by decide, _, _, rfl⟩

theorem witness_HostsAreIndistinguishable :
    ∃ (b : Block narrow.width) (hs : List HostState),
      hostMove 0 (idle narrow [] [[.write 0x100 4 5#32], [.write 0x100 4 5#32]]) = .next
        { idle narrow [] [] with block := b, hosts := hs } ∧
        (idle narrow [] [[.write 0x100 4 5#32], [.write 0x100 4 5#32]]).hosts[1]? =
          some { ops := [.write 0x100 4 5#32], reads := [], faulted := false } :=
  ⟨_, _, rfl, by decide⟩

/-- While a command runs, a host that polls STATUS keeps its duties, whatever the contract. -/
theorem witness_DutifulStepsNeverCollide (c : Contract) :
    ({ running narrow [12, 18] 0x01001000#32 [] [[.wait]] with schedule := [.host 0] } : State).Inv ∧
      ({ running narrow [12, 18] 0x01001000#32 [] [[.wait]] with schedule := [.host 0] } :
        State).keepsDuty c (Ledger.start (idle narrow [] [[]]) []) := by
  refine ⟨running_gcd_inv [[.wait]], fun n h op ops hn hh _ ho => ?_⟩
  obtain rfl : n = 0 := by simpa [State.nextTurn] using hn.symm
  obtain rfl : h = { ops := [.wait], reads := [], faulted := false } := by
    simpa [running] using hh.symm
  obtain ⟨rfl, -⟩ : op = .wait ∧ ops = [] := by simpa using ho.symm
  trivial

/-- KEYGEN of 61 and 53 with one draw rejected, about to complete (95_test_vectors.md P1). -/
def generating : State := running narrow [61, 53] 0x0400111A#32 [6, 17] []

theorem generating_decode : decode generating.block.latch.cmd = .ok (.keygen 2 3 4 0 1) := by decide

theorem generating_inv : generating.Inv :=
  ⟨fun _ => ⟨by decide, by decide, by decide, by decide, .keygen 2 3 4 0 1, by decide, by decide,
    by decide⟩, by decide, by decide⟩

/-- The ledger while that KEYGEN runs: no key is in use yet. -/
def beforeKey : Ledger :=
  { hosts := [{ awaiting := some (.keygen 2 3 4 0 1), report := .unread }], keys := [], count := 0 }

/-- The ledger after it: its destinations hold a key in use. -/
def afterKey : Ledger := beforeKey.addKey [2, 3, 4]

/-- The machine after it. -/
def generated : State :=
  match step generating with
  | .next t => t
  | .fault _ => generating
  | .refused _ => generating

/-- The KEYGEN's completion is a dutiful step. -/
theorem generating_step (c : Contract) : DutifulStep c generating beforeKey generated afterKey := by
  refine ⟨fun n h op ops hn => ?_, rfl, by decide⟩
  rw [show generating.nextTurn = some .engine by decide] at hn
  cases hn

/-- After that completion its key is in use; and from there a further dutiful step leaves it in use. -/
theorem witness_DutifulRunsKeepTheKey (c : Contract) :
    (DutifulStep c generating beforeKey generated afterKey ∧ generating.nextTurn = some .engine ∧
      generating.block.busy = true ∧ generated.block.err = false ∧
      decode generating.block.latch.cmd = .ok (.keygen 2 3 4 0 1)) ∧
      generating.Inv ∧ beforeKey.wf ∧ (∀ r, r ∉ beforeKey.keyRegs) ∧
      DutifulReaches c generating beforeKey generated afterKey ∧
      DutifulReaches c generated afterKey generated afterKey ∧
      (⟨0, [2, 3, 4]⟩ : Key) ∈ afterKey.keys := by
  have idle_step : DutifulStep c generated afterKey generated afterKey := by
    refine ⟨fun n h op ops hn => ?_, rfl, by decide⟩
    rw [show generated.nextTurn = none by decide] at hn
    cases hn
  exact ⟨⟨generating_step c, by decide, by decide, by decide, generating_decode⟩, generating_inv,
    fun key hk => absurd hk (by simp [beforeKey]), by decide, .tail (.refl _ _) (generating_step c),
    .tail (.refl _ _) idle_step, by decide⟩

/-! ### The duties and liberties of R60 -/

/-- A ledger in which host 0 waits for the GCD that runs in `running narrow [12, 18] 0x01001000`. -/
def waiting : Ledger :=
  { hosts := [{ awaiting := some (.gcd 0 0 1), report := .unread }], keys := [], count := 0 }

/-- While a GCD into D0 runs, reading D1 is a liberty and reading the result D0 breaks a duty. -/
theorem test_duty_reads :
    dataReadKeepsDuty (running narrow [12, 18] 0x01001000#32 [] []) waiting 0 1 ∧
      ¬ dataReadKeepsDuty (running narrow [12, 18] 0x01001000#32 [] []) waiting 0 0 := by
  have hd : decode (running narrow [12, 18] 0x01001000#32 [] []).block.latch.cmd = .ok (.gcd 0 0 1) := by
    decide
  refine ⟨⟨fun i _ hi => ?_, fun i hi => ?_⟩, fun h => h.1 (.gcd 0 0 1) (by decide) hd (by decide)⟩
  · obtain rfl := Except.ok.inj (hd.symm.trans hi); decide
  · obtain rfl : Instr.gcd 0 0 1 = i := by simpa [waiting, Ledger.host] using hi
    decide

/-- The key that a KEYGEN of the run has left may not be overwritten, by a write or by a command, until it
goes out of use; other registers may. -/
theorem test_duty_key_registers :
    ¬ dataWriteKeepsDuty (idle narrow [] [[]]) (afterKey.setHost 0 HostDuty.free) 0 3 ∧
      dataWriteKeepsDuty (idle narrow [] [[]]) (afterKey.setHost 0 HostDuty.free) 0 5 ∧
      dataWriteKeepsDuty (idle narrow [] [[]]) ((afterKey.setHost 0 HostDuty.free).retire 0) 0 3 ∧
      ¬ issueKeepsDuty { roundTrip := false, keyValidity := false } (idle narrow [] [[]])
        (afterKey.setHost 0 HostDuty.free) 0 0x01001002#32 := by
  refine ⟨fun h => h.2.2 (by decide), ⟨by decide, by decide, by decide⟩,
    ⟨by decide, by decide, by decide⟩, fun h => ?_⟩
  exact (h.2.2.2 (.gcd 2 0 1) (by decide) (by decide)).1 2 (by decide) (by decide)

/-- A STATUS read observes a completion only with DONE = 1 (R119): after a W1C of DONE the host still waits,
and may not read the result. -/
theorem test_duty_observation :
    ((waiting.afterOp { idle narrow [] [[]] with block := { blockOf narrow [] with done := true } } 0
        (.read 0x014 4)).host 0).awaiting = none ∧
      ((waiting.afterOp (idle narrow [] [[]]) 0 (.read 0x014 4)).host 0).awaiting =
        some (.gcd 0 0 1) ∧
      ((waiting.afterOp (idle narrow [] [[]]) 0 .wait).host 0).awaiting = some (.gcd 0 0 1) ∧
      ¬ dataReadKeepsDuty (idle narrow [] [[]]) (waiting.afterOp (idle narrow [] [[]]) 0 .wait) 0 0 := by
  refine ⟨by decide, by decide, by decide, fun h => ?_⟩
  exact h.2 (.gcd 0 0 1) (by decide) (by decide)

/-- The state after a MODINV of 4 modulo 8 has ended in NO_INVERSE. -/
def failed : State :=
  { running narrow [4, 8] 0x03001005#32 [] [] with
    block := (running narrow [4, 8] 0x03001005#32 [] []).block.endInError .noInverse }

/-- Reading STATUS sees an error 1; clearing it unread ignores it, and no next command is then dutiful. -/
theorem test_duty_errors :
    (waiting.afterOp failed 0 (.read 0x014 4)).host 0 = HostDuty.free ∧
      ((waiting.afterOp failed 0 (.write 0x014 4 0x106#32)).host 0).report = .ignored ∧
      ¬ issueKeepsDuty { roundTrip := false, keyValidity := false } failed
        (waiting.afterOp failed 0 (.write 0x014 4 0x106#32)) 0 0x01001002#32 ∧
      ¬ waiting.errorsReported failed 0 := by
  refine ⟨by decide, by decide, fun h => absurd h.2.2.1 (by decide),
    fun h => absurd (h.2 (by decide)) (by decide)⟩

/-- Under the round-trip contract an EXPMOD of m = n is not issued, one of m < n is; without it both are. -/
theorem test_duty_contract :
    ¬ issueKeepsDuty { roundTrip := true, keyValidity := false } (idle narrow [33, 3, 33] [[]])
        (Ledger.start (idle narrow [33, 3, 33] [[]]) []) 0 0x05011003#32 ∧
      issueKeepsDuty { roundTrip := true, keyValidity := false } (idle narrow [32, 3, 33] [[]])
        (Ledger.start (idle narrow [32, 3, 33] [[]]) []) 0 0x05011003#32 ∧
      issueKeepsDuty { roundTrip := false, keyValidity := false } (idle narrow [33, 3, 33] [[]])
        (Ledger.start (idle narrow [33, 3, 33] [[]]) []) 0 0x05011003#32 := by
  have hd : decode 0x05011003#32 = .ok (.expmod 3 0 1 2) := by decide
  refine ⟨fun h => ?_, ⟨by decide, by decide, by decide, fun i hi _ => ?_⟩,
    ⟨by decide, by decide, by decide, fun i hi _ => ?_⟩⟩
  · exact absurd ((h.2.2.2 _ hd (by decide)).2 rfl) (by decide)
  · obtain rfl := Except.ok.inj (hd.symm.trans hi)
    exact ⟨by decide, fun _ => by decide⟩
  · obtain rfl := Except.ok.inj (hd.symm.trans hi)
    exact ⟨by decide, fun h => absurd h (by decide)⟩

/-- Both ends of the integers that have a W-bit pattern; the host holds the expansion and one more
operation. -/
theorem witness_WrLineWritesTheWholeRegister :
    (expandLine wide (.wr 7 (-9223372036854775808))).isSome = true ∧
      (expandLine wide (.wr 7 18446744073709551615)).isSome = true ∧
      expandLine wide (.wr 0 (-1)) =
        some [.write 0x1100 4 0xFFFFFFFF#32, .write 0x1104 4 0xFFFFFFFF#32] ∧
      (idle wide [] [[.write 0x1100 4 0xFFFFFFFF#32, .write 0x1104 4 0xFFFFFFFF#32] ++ [.wait]]).hosts =
        [{ ops := [.write 0x1100 4 0xFFFFFFFF#32, .write 0x1104 4 0xFFFFFFFF#32] ++ [.wait], reads := [],
           faulted := false }] ∧
      (idle wide [] [[.write 0x1100 4 0xFFFFFFFF#32, .write 0x1104 4 0xFFFFFFFF#32] ++
        [.wait]]).block.busy = false ∧
      (idle wide [] [[.write 0x1100 4 0xFFFFFFFF#32, .write 0x1104 4 0xFFFFFFFF#32] ++
        [.wait]]).schedule = [] := by decide

/-- The host holds the expansion and one more operation. -/
theorem witness_RdLineReadsTheWholeRegister :
    expandLine wide (.rd 7) = some [.read 0x1804 4, .read 0x1800 4] ∧
      (idle wide [5] [[.read 0x1804 4, .read 0x1800 4] ++ [.wait]]).hosts =
        [{ ops := [.read 0x1804 4, .read 0x1800 4] ++ [.wait], reads := [], faulted := false }] ∧
      (idle wide [5] [[.read 0x1804 4, .read 0x1800 4] ++ [.wait]]).block.busy = false ∧
      (idle wide [5] [[.read 0x1804 4, .read 0x1800 4] ++ [.wait]]).schedule = [] := by decide

theorem witness_WaitEndsAfterTheCompletion :
    (running narrow [12, 18] 0x01001000#32 [] [[.wait]]).Inv ∧
      (running narrow [12, 18] 0x01001000#32 [] [[.wait]]).schedule = [] ∧
      (running narrow [12, 18] 0x01001000#32 [] [[.wait]]).block.busy = true ∧
      (running narrow [12, 18] 0x01001000#32 [] [[.wait]]).hosts =
        { ops := .wait :: [], reads := [], faulted := false } :: [] :=
  ⟨running_gcd_inv _, by decide, by decide, by decide⟩

theorem witness_WaitPollsWhileBusy :
    ({ running narrow [12, 18] 0x01001000#32 [] [[.wait]] with schedule := [.host 0] } :
        State).schedule = .host 0 :: [] ∧
      (running narrow [12, 18] 0x01001000#32 [] [[.wait]]).hosts[0]? =
        some { ops := .wait :: [], reads := [], faulted := false } ∧
      (running narrow [12, 18] 0x01001000#32 [] [[.wait]]).block.busy = true ∧
      (idle narrow [] [[.wait]]).block.busy = false := by decide

/-- Host 0's run has ended though host 1 is still to read and host 2 has faulted; a next state; and a state
in which no host has a move. -/
theorem witness_EndedRunsStayAsTheyAre :
    ({ idle narrow [5] [[], [.read 0x100 4]] with
        hosts := (idle narrow [5] [[], [.read 0x100 4]]).hosts ++
          [{ ops := [.wait], reads := [], faulted := true }] } : State).ended 0 ∧
      (∃ t, step (idle narrow [5] [[], [.read 0x100 4]]) = .next t) ∧
      (idle narrow [5] [[]]).ended 0 ∧ (idle narrow [5] [[]]).schedule = [] ∧
      (∀ h ∈ (idle narrow [5] [[]]).hosts, h.ops = [] ∨ h.faulted = true) :=
  ⟨⟨by decide, _, rfl, rfl, rfl⟩, ⟨_, rfl⟩, ⟨by decide, _, rfl, rfl, rfl⟩, by decide, by decide⟩

/-- The reset state meets the invariant. -/
theorem test_reset_inv : State.reset.Inv :=
  ⟨fun h => absurd h (by decide), by decide, by decide⟩

end Sys2Proof.Tests
end

/-! ## The state: what a step can do to the block, and what every step keeps (10_state.md) -/

namespace Sys2Proof.Machine

/-! ### Host accesses to the offsets of the map -/

theorem Block.hostWrite_bad (p : Params) (b : Block p.width) {off size : Nat} (v : Word)
    (h : size ≠ 4 ∨ off % 4 ≠ 0) : b.hostWrite p off size v = none := by
  simp [Block.hostWrite, (badAccess_iff off size).2 h]

theorem Block.hostWrite_aligned (p : Params) (b : Block p.width) {off : Nat} (v : Word)
    (h : off % 4 = 0) : b.hostWrite p off 4 v = some (b.writeSlot (slotAt p.words off) v) := by
  simp [Block.hostWrite, (goodAccess_iff off 4).2 ⟨rfl, h⟩]

theorem Block.hostWrite_cmd_idle (p : Params) (b : Block p.width) (v : Word) (h : b.busy = false) :
    b.hostWrite p 0x010 4 v = some (b.accept v) := by
  rw [b.hostWrite_aligned p v (by decide)]
  simp [slotAt, Block.writeSlot, h]

theorem Block.hostWrite_status (p : Params) (b : Block p.width) (v : Word) :
    b.hostWrite p 0x014 4 v = some (b.statusWrite v) :=
  b.hostWrite_aligned p v (by decide)

theorem Block.hostWrite_ctrl (p : Params) (b : Block p.width) (v : Word) :
    b.hostWrite p 0x018 4 v = some (b.ctrlWrite v) :=
  b.hostWrite_aligned p v (by decide)

theorem Block.ctrlWrite_reset {w : Nat} (b : Block w) {v : Word} (h : v.getLsbD 1 = true) :
    b.ctrlWrite v = Block.reset w := by
  rw [Block.ctrlWrite, if_pos h, Block.doReset]

theorem Block.ctrlWrite_irqEn {w : Nat} (b : Block w) {v : Word} (h : v.getLsbD 1 = false) :
    b.ctrlWrite v = { b with irqEn := v.getLsbD 0 } := by
  rw [Block.ctrlWrite, h, if_neg Bool.false_ne_true]

/-- R32's four flags as R32 writes them: cleared where `v` has a 1, else kept. -/
theorem Block.statusWrite_eq_ite {w : Nat} (b : Block w) (v : Word) :
    b.statusWrite v =
      { b with
        done := if v.getLsbD 1 then false else b.done
        err := if v.getLsbD 2 then false else b.err
        errcode := if v.getLsbD 2 then 0#4 else b.errcode
        coll := if v.getLsbD 8 then false else b.coll } := by
  simp only [Block.statusWrite, Bool.if_false_left, Bool.decide_eq_true, Bool.and_comm]

/-- Writes to the constants and to the reserved offsets are ignored (R27, R28, R53). -/
theorem Block.writeSlot_ignored {p : Params} (b : Block p.width) {off : Nat} (v : Word)
    (ha : off % 4 = 0) (hn : off ∉ [0x010, 0x014, 0x018])
    (hd : ∀ (k : Reg) (j : Nat), j < p.words → off ≠ 0x100 + 0x100 * k.val + 4 * j) :
    b.writeSlot (slotAt p.words off) v = b := by
  obtain ⟨h, -, -⟩ | ⟨-, -, rfl | ⟨k, j, hj, ho⟩⟩ | ⟨-, rfl, -⟩ | ⟨rfl, -⟩ | ⟨rfl, -⟩ | ⟨rfl, -⟩ |
    ⟨-, k, j, hj, ho, -⟩ := b.writeSlot_cases p.words off v
  · exact h
  · simp at hn
  · exact absurd (by omega) (hd k j hj)
  · simp at hn
  · simp at hn
  · simp at hn
  · simp at hn
  · exact absurd (by omega) (hd k j hj)

/-- Settles O11: each offset of the map has one slot, and `writeSlot` does on it what R32 and R43 say. -/
theorem hostWritesFollowTheMap : Obligations.HostWritesFollowTheMap := by
  unfold Obligations.HostWritesFollowTheMap
  rintro p b off size v
  refine ⟨b.hostWrite_bad p v, ?_⟩
  rintro rfl ha
  refine ⟨?status, ?reset, ?irqEn, ?ignored⟩
  case status =>
    rintro rfl
    rw [b.hostWrite_status, b.statusWrite_eq_ite]
  case reset =>
    rintro rfl hv
    rw [b.hostWrite_ctrl, b.ctrlWrite_reset hv]
  case irqEn =>
    rintro rfl hv
    rw [b.hostWrite_ctrl, b.ctrlWrite_irqEn hv]
  case ignored =>
    intro hn hd
    rw [b.hostWrite_aligned p v ha, b.writeSlot_ignored v ha hn hd]

/-! ### A completion's flags and registers -/

@[simp] theorem Block.complete_busy {w : Nat} (b : Block w)
    (r : Except ErrorCode (List (Reg × BitVec w))) : (b.complete r).busy = false := by
  obtain ⟨rs, -, h⟩ | ⟨e, -, h⟩ := b.complete_cases r <;> rw [h]

@[simp] theorem Block.complete_done {w : Nat} (b : Block w)
    (r : Except ErrorCode (List (Reg × BitVec w))) : (b.complete r).done = true := by
  obtain ⟨rs, -, h⟩ | ⟨e, -, h⟩ := b.complete_cases r <;> rw [h]

@[simp] theorem Block.complete_irqEn {w : Nat} (b : Block w)
    (r : Except ErrorCode (List (Reg × BitVec w))) : (b.complete r).irqEn = b.irqEn := by
  obtain ⟨rs, -, h⟩ | ⟨e, -, h⟩ := b.complete_cases r <;> rw [h]

@[simp] theorem Block.complete_coll {w : Nat} (b : Block w)
    (r : Except ErrorCode (List (Reg × BitVec w))) : (b.complete r).coll = b.coll := by
  obtain ⟨rs, -, h⟩ | ⟨e, -, h⟩ := b.complete_cases r <;> rw [h]

/-- A register that a completion changes got a result, and the completion has no error (R18, R49). -/
theorem Block.complete_reg_ne {w : Nat} {b : Block w} {r : Except ErrorCode (List (Reg × BitVec w))}
    {k : Reg} (h : (b.complete r).reg k ≠ b.reg k) :
    (b.complete r).err = false ∧ ∃ rs, r = .ok rs ∧ k ∈ rs.map Prod.fst := by
  cases r with
  | error e => exact absurd rfl h
  | ok rs =>
    refine ⟨rfl, rs, rfl, ?_⟩
    by_contra hk
    exact h (b.reg_commit rs k hk)

/-! ### The interrupt (R36, R105) -/

theorem Block.irq_of_done {w : Nat} {b : Block w} (h : b.done = true) : b.irq = b.irqEn := by
  simp [Block.irq, h]

theorem Block.irq_of_not_done {w : Nat} {b : Block w} (h : b.done = false) : b.irq = false := by
  simp [Block.irq, h]

theorem Block.irq_accept {w : Nat} (b : Block w) (v : Word) :
    (b.accept v).irq = (b.irqEn && !legal v) := by
  obtain ⟨hl, h⟩ | ⟨hl, i, -, -, h⟩ := b.accept_cases v <;> simp [h, hl, Block.irq]

theorem Block.irq_of_exec {i : Instr} {s : State} {b : Block s.params.width} {g : Rng}
    (h : exec i s = .next { s with block := b, rng := g }) : b.irq = s.block.irqEn := by
  obtain ⟨r, g', he, -, -⟩ := exec_cases i s
  rw [he] at h
  cases h
  rw [Block.irq_of_done (Block.complete_done _ r), Block.complete_irqEn]

/-- Settles O48: every completion sets DONE and keeps IRQ_EN, and each write's effect on DONE and IRQ_EN
is its operation's. -/
theorem irqIsEnabledCompletion : Obligations.IrqIsEnabledCompletion := by
  unfold Obligations.IrqIsEnabledCompletion
  refine ⟨fun i s b g => Block.irq_of_exec, fun p b v => ⟨rfl, ?accept, ?clear, ?reset, ?enable⟩⟩
  case accept => exact fun hb => ⟨_, b.hostWrite_cmd_idle p v hb, b.irq_accept v⟩
  case clear =>
    exact fun hv => ⟨_, b.hostWrite_status p v, Block.irq_of_not_done (by simp [hv])⟩
  case reset =>
    refine fun hv => ⟨_, b.hostWrite_ctrl p v, Block.irq_of_not_done ?_⟩
    rw [b.ctrlWrite_reset hv, Block.reset]
  case enable =>
    refine fun hv => ⟨_, b.hostWrite_ctrl p v, ?_⟩
    rw [b.ctrlWrite_irqEn hv, Block.irq]

/-! ### Everything a step can do to the block -/

/-- It is the turn of a host about to write `v`, 32 bits wide, at the offset `off` of the window. -/
def State.writesNext (s : State) (off : Nat) (v : Word) : Prop :=
  ∃ (n : Nat) (h : HostState) (ops : List HostOp), s.nextTurn = some (.host n) ∧
    s.hosts[n]? = some h ∧ h.ops = .write (s.params.base + off) 4 v :: ops

/-- `BlockMove s b`: `b` is what one transition makes of the block of `s`, with what the transition
needs (`step_blockMove`). -/
inductive BlockMove (s : State) : Block s.params.width → Prop where
  /-- No write and no completion. -/
  | keep : BlockMove s s.block
  /-- The hardware or the soft reset (R113). -/
  | reset (cause : s.nextTurn = some .hardReset ∨ ∃ v, s.writesNext 0x018 v ∧ v.getLsbD 1 = true) :
      BlockMove s (Block.reset s.params.width)
  /-- COMPLETE (R49). -/
  | complete {i : Instr} {r : Except ErrorCode (List (Reg × BitVec s.params.width))}
      (turn : s.nextTurn = some .engine) (busy : s.block.busy = true)
      (command : decode s.block.latch.cmd = .ok i)
      (results : ∀ rs, r = .ok rs → rs.map Prod.fst = destinations i) :
      BlockMove s (s.block.complete r)
  /-- A write dropped while busy (R52). -/
  | collide {off : Nat} {v : Word} (write : s.writesNext off v) (busy : s.block.busy = true)
      (target : off = 0x010 ∨ ∃ (k : Reg) (j : Nat), j < s.params.words ∧
        off = 0x100 + 0x100 * k.val + 4 * j) :
      BlockMove s s.block.collide
  /-- Acceptance of an illegal word (R48, R96). -/
  | acceptIllegal {v : Word} (write : s.writesNext 0x010 v) (idle : s.block.busy = false)
      (illegal : legal v = false) : BlockMove s (s.block.acceptIllegal v)
  /-- Acceptance of a legal word (R48). -/
  | acceptLegal {v : Word} {i : Instr} (write : s.writesNext 0x010 v) (idle : s.block.busy = false)
      (command : decode v = .ok i) (wellFormed : i.wellFormed = true) :
      BlockMove s (s.block.acceptLegal v i)
  /-- Write-1-to-clear of STATUS (R32). -/
  | statusWrite {v : Word} (write : s.writesNext 0x014 v) : BlockMove s (s.block.statusWrite v)
  /-- A write of CTRL without a soft reset (R30). -/
  | setIrqEn {v : Word} (write : s.writesNext 0x018 v) (noReset : v.getLsbD 1 = false) :
      BlockMove s { s.block with irqEn := v.getLsbD 0 }
  /-- A write of word j of D[k] while idle (R43). -/
  | dataWrite {k : Reg} {j : Nat} {v : Word} (write : s.writesNext (0x100 + 0x100 * k.val + 4 * j) v)
      (idle : s.block.busy = false) (word : j < s.params.words) :
      BlockMove s (s.block.setReg k (putWord (s.block.reg k) j v))

/-- An aligned 32-bit write by the host whose turn it is makes one of the block's moves. -/
theorem blockMove_writeSlot {s : State} {off : Nat} {v : Word} (hw : s.writesNext off v)
    (ha : off % 4 = 0) : BlockMove s (s.block.writeSlot (slotAt s.params.words off) v) := by
  obtain ⟨h, -, -⟩ | ⟨hb, h, ht⟩ | ⟨hb, rfl, h⟩ | ⟨rfl, h⟩ | ⟨rfl, hv, h⟩ | ⟨rfl, hv, h⟩ |
    ⟨hb, k, j, hj, ho, h⟩ := s.block.writeSlot_cases s.params.words off v
  all_goals rw [h]
  · exact .keep
  · refine .collide hw hb (ht.imp_right ?_)
    rintro ⟨k, j, hj, ho⟩
    exact ⟨k, j, hj, by omega⟩
  · obtain ⟨hl, hc⟩ | ⟨-, i, hd, hwf, hc⟩ := s.block.accept_cases v
    · rw [hc]; exact .acceptIllegal hw hb hl
    · rw [hc]; exact .acceptLegal hw hb hd hwf
  · exact .statusWrite hw
  · exact .reset (.inr ⟨v, hw, hv⟩)
  · exact .setIrqEn hw hv
  · rw [ha, Nat.add_zero] at ho
    subst ho
    exact .dataWrite hw hb hj

/-- Every step makes a move of the block and keeps the parameters. -/
theorem step_blockMove {s t : State} (h : step s = .next t) :
    ∃ (b : Block s.params.width) (g : Rng) (hs : List HostState) (sch : List Turn),
      t = { s with block := b, rng := g, hosts := hs, schedule := sch } ∧ BlockMove s b := by
  obtain ⟨hs, h1⟩ | h1 | ⟨n, hn, addr, v, ops, ht, hh, -, ho, hb, -, ha, h1⟩ |
    ⟨ht, hb, i, r, g, hd, -, hr, h1⟩ | ⟨-, -, -, h1⟩ | ⟨ht, h1⟩ := step_cases s
  all_goals
    rw [h1] at h
    cases h
  · exact ⟨_, _, _, _, rfl, .keep⟩
  · refine ⟨_, _, _, _, rfl, blockMove_writeSlot ⟨n, hn, ops, ht, hh, ?_⟩ ha⟩
    rw [ho, Nat.add_sub_cancel' hb]
  · exact ⟨_, _, _, _, rfl, .complete ht hb hd hr⟩
  · exact ⟨_, _, _, _, rfl, .reset (.inl ht)⟩

/-- `step_blockMove` for a next state that is written out. -/
theorem blockMove_of_step {s : State} {b : Block s.params.width} {g : Rng} {hs : List HostState}
    {sch : List Turn}
    (h : step s = .next { s with block := b, rng := g, hosts := hs, schedule := sch }) :
    BlockMove s b := by
  obtain ⟨b', g', hs', sch', he, hm⟩ := step_blockMove h
  cases he
  exact hm

/-! ### The parameters and the constants (R27, R28, R117) -/

/-- ID, CFG and MAXTRY read the same in every block. -/
theorem Block.hostRead_constant {p : Params} (b c : Block p.width) {off : Nat}
    (h : off = 0x000 ∨ off = 0x004 ∨ off = 0x008) : c.hostRead p off 4 = b.hostRead p off 4 := by
  obtain rfl | rfl | rfl := h <;> rfl

/-- Settles O42: a step changes the fields beside `params` only, and the three constants read nothing of
the block. -/
theorem noStepChangesTheParameters : Obligations.NoStepChangesTheParameters := by
  unfold Obligations.NoStepChangesTheParameters
  intro s t h
  obtain ⟨b, g, hs, sch, rfl, -⟩ := step_blockMove h
  exact ⟨rfl, fun off => s.block.hostRead_constant b⟩

/-! ### The invariant -/

theorem Block.busyOk_of_idle {w : Nat} {b : Block w} (h : b.busy = false) : b.busyOk :=
  fun hb => absurd hb (by simp [h])

/-- What acceptance of a legal word latches is what `busyOk` asks of a running command (R48, R51). -/
theorem Block.busyOk_acceptLegal {w : Nat} (b : Block w) {v : Word} {i : Instr} (hd : decode v = .ok i)
    (hw : i.wellFormed = true) : (b.acceptLegal v i).busyOk :=
  fun _ => ⟨rfl, rfl, rfl, rfl, i, hd, hw, rfl⟩

theorem Block.busyOk_statusWrite {w : Nat} {b : Block w} (h : b.busyOk) (v : Word) :
    (b.statusWrite v).busyOk := by
  intro hb
  obtain ⟨hdone, herr, hcode, hcmd, hlatch⟩ := h hb
  exact ⟨by simp [hdone], by simp [herr], by simp [hcode], hcmd, hlatch⟩

theorem Block.errOk_complete {w : Nat} (b : Block w) (r : Except ErrorCode (List (Reg × BitVec w))) :
    (b.complete r).errOk := by
  obtain ⟨rs, -, h⟩ | ⟨e, -, h⟩ := b.complete_cases r <;> rw [h]
  · exact ⟨by simp, by simp⟩
  · exact ⟨by simp [e.code_ne_zero], e.code_le_six⟩

theorem Block.errOk_statusWrite {w : Nat} {b : Block w} (h : b.errOk) (v : Word) :
    (b.statusWrite v).errOk := by
  obtain ⟨hzero, hle⟩ := h
  cases hv : v.getLsbD 2 <;>
    simp only [Block.errOk, Block.statusWrite_err, Block.statusWrite_errcode, hv]
  · simpa using ⟨hzero, hle⟩
  · simp

/-- A move that leaves BUSY = 1 is a legal acceptance, or keeps the latch, CMD_LAST and D, and keeps at 0
what of DONE, ERR and ERRCODE is 0. -/
theorem BlockMove.busyOk {s : State} {b : Block s.params.width} (m : BlockMove s b)
    (h : s.block.busyOk) : b.busyOk := by
  cases m with
  | keep | collide | setIrqEn => exact h
  | reset | acceptIllegal => exact Block.busyOk_of_idle rfl
  | complete => exact Block.busyOk_of_idle (Block.complete_busy _ _)
  | acceptLegal _ _ hd hw => exact s.block.busyOk_acceptLegal hd hw
  | statusWrite => exact Block.busyOk_statusWrite h _
  | dataWrite _ idle _ => exact Block.busyOk_of_idle idle

/-- Every move that writes ERR or ERRCODE writes both, to agreeing values. -/
theorem BlockMove.errOk {s : State} {b : Block s.params.width} (m : BlockMove s b)
    (h : s.block.errOk) : b.errOk := by
  cases m with
  | keep | collide | setIrqEn | dataWrite => exact h
  | reset => simp [Block.errOk, Block.reset]
  | complete => exact s.block.errOk_complete _
  | acceptIllegal | acceptLegal => simp [Block.errOk]
  | statusWrite => exact Block.errOk_statusWrite h _

/-- Settles O39: each of the block's moves keeps both parts of the invariant. -/
theorem everyStepKeepsTheInvariant : Obligations.EveryStepKeepsTheInvariant := by
  unfold Obligations.EveryStepKeepsTheInvariant
  rintro s t ⟨hbusy, herr⟩ h
  obtain ⟨b, g, hs, sch, rfl, hm⟩ := step_blockMove h
  exact ⟨hm.busyOk hbusy, hm.errOk herr⟩

/-! ### What changes a data register, BUSY and COLL -/

/-- Who writes D[k] (R18). -/
theorem BlockMove.reg_ne {s : State} {b : Block s.params.width} {k : Reg} (m : BlockMove s b)
    (hne : b.reg k ≠ s.block.reg k) :
    b = Block.reset s.params.width ∨
      (s.block.busy = false ∧
        ∃ j v, j < s.params.words ∧ s.writesNext (0x100 + 0x100 * k.val + 4 * j) v) ∨
      (s.block.busy = true ∧ s.nextTurn = some .engine ∧ b.err = false ∧
        ∃ i, decode s.block.latch.cmd = .ok i ∧ k ∈ destinations i) := by
  cases m with
  | reset => exact .inl rfl
  | complete turn busy command results =>
    obtain ⟨herr, rs, hr, hk⟩ := Block.complete_reg_ne hne
    exact .inr (.inr ⟨busy, turn, herr, _, command, results rs hr ▸ hk⟩)
  | @dataWrite k' j v write idle word =>
    obtain rfl : k' = k := by
      by_contra hk
      exact hne (Block.reg_setReg_ne _ _ hk)
    exact .inr (.inl ⟨idle, j, v, word, write⟩)
  | keep | collide | acceptIllegal | acceptLegal | statusWrite | setIrqEn => exact absurd rfl hne

/-- Settles O49: of the block's moves only a reset, a completion and an idle data write touch D. -/
theorem dataRegistersChangeOnlyAsTheRulesSay : Obligations.DataRegistersChangeOnlyAsTheRulesSay := by
  unfold Obligations.DataRegistersChangeOnlyAsTheRulesSay
  intro s b g hs sch k h hne
  obtain hreset | ⟨idle, j, v, hj, n, hst, ops, ht, hh, ho⟩ | hengine :=
    (blockMove_of_step h).reg_ne hne
  · exact .inl hreset
  · exact .inr (.inl ⟨idle, n, hst, j, v, ops, ht, hh, hj, ho⟩)
  · exact .inr (.inr hengine)

/-- What sets BUSY (R22). -/
theorem BlockMove.busy_rises {s : State} {b : Block s.params.width} (m : BlockMove s b)
    (h0 : s.block.busy = false) (h1 : b.busy = true) : ∃ v, s.writesNext 0x010 v ∧ legal v = true := by
  cases m with
  | acceptLegal write _ hd hw => exact ⟨_, write, (legal_iff _).2 ⟨_, hd, hw⟩⟩
  | complete => simp at h1
  | reset | acceptIllegal => cases h1
  | keep | collide | statusWrite | setIrqEn | dataWrite => simp [h0] at h1

/-- What clears BUSY (R22). -/
theorem BlockMove.busy_falls {s : State} {b : Block s.params.width} (m : BlockMove s b)
    (h1 : s.block.busy = true) (h0 : b.busy = false) :
    s.nextTurn = some .engine ∨ b = Block.reset s.params.width := by
  cases m with
  | complete turn _ _ _ => exact .inl turn
  | reset => exact .inr rfl
  | acceptIllegal _ idle _ => simp [idle] at h1
  | acceptLegal => simp at h0
  | keep | collide | statusWrite | setIrqEn | dataWrite => simp [h1] at h0

/-- Settles O50: of the block's moves only a legal acceptance sets BUSY, and only a completion or a reset
clears it. -/
theorem busyFollowsAcceptanceAndCompletion : Obligations.BusyFollowsAcceptanceAndCompletion := by
  unfold Obligations.BusyFollowsAcceptanceAndCompletion
  intro s b g hs sch h
  have hm := blockMove_of_step h
  refine ⟨fun h0 h1 => ?_, hm.busy_falls⟩
  obtain ⟨v, ⟨n, hst, ops, ht, hh, ho⟩, hv⟩ := hm.busy_rises h0 h1
  exact ⟨n, hst, v, ops, ht, hh, ho, hv⟩

/-- What sets COLL (R26, R52). -/
theorem BlockMove.coll_rises {s : State} {b : Block s.params.width} (m : BlockMove s b)
    (h0 : s.block.coll = false) (h1 : b.coll = true) :
    s.block.busy = true ∧ ∃ off v, s.writesNext off v ∧
      (off = 0x010 ∨ ∃ (k : Reg) (j : Nat), j < s.params.words ∧
        off = 0x100 + 0x100 * k.val + 4 * j) := by
  cases m with
  | collide write busy target => exact ⟨busy, _, _, write, target⟩
  | reset => cases h1
  | keep | complete | acceptIllegal | acceptLegal | statusWrite | setIrqEn | dataWrite => simp [h0] at h1

/-- What clears COLL (R26, R32). -/
theorem BlockMove.coll_falls {s : State} {b : Block s.params.width} (m : BlockMove s b)
    (h1 : s.block.coll = true) (h0 : b.coll = false) :
    b = Block.reset s.params.width ∨ ∃ v, s.writesNext 0x014 v ∧ v.getLsbD 8 = true := by
  cases m with
  | reset => exact .inl rfl
  | statusWrite write => exact .inr ⟨_, write, by simpa [h1] using h0⟩
  | collide => simp at h0
  | keep | complete | acceptIllegal | acceptLegal | setIrqEn | dataWrite => simp [h1] at h0

/-- Settles O51: of the block's moves only a dropped write sets COLL, and only a STATUS write and a reset
clear it. -/
theorem collIsSticky : Obligations.CollIsSticky := by
  unfold Obligations.CollIsSticky
  intro s b g hs sch h
  have hm := blockMove_of_step h
  constructor
  · intro h0 h1
    obtain ⟨busy, off, v, ⟨n, hst, ops, ht, hh, ho⟩, target⟩ := hm.coll_rises h0 h1
    exact ⟨busy, n, hst, off, v, ops, ht, hh, ho, target⟩
  · intro h1 h0
    obtain hreset | ⟨v, ⟨n, hst, ops, ht, hh, ho⟩, hv⟩ := hm.coll_falls h1 h0
    · exact .inl hreset
    · exact .inr ⟨n, hst, v, ops, ht, hh, ho, hv⟩

end Sys2Proof.Machine

/-! ## The register window: host reads, host writes and acceptance (20_memory.md) -/

namespace Sys2Proof

/-! ### The source fields of a legal word (R48, R66) -/

theorem decode_encode (i : Instr) : decode (encode i) = .ok i := by
  cases i <;>
    simp [decode, decodeTwoSource, decodeXgcd, decodeKeygen, decodeExpmod, encode, Instr.opcode,
      rsvField_packFields, opcField_packFields, hField_packFields, fs2Field_packFields,
      fs1Field_packFields, fs0Field_packFields, fd2Field_packFields, fd1Field_packFields,
      fd0Field_packFields]

theorem decodeTwoSource_eq_ok {mk : Reg → Reg → Reg → Instr} {v : Word} {i : Instr}
    (h : decodeTwoSource mk v = .ok i) : i = mk (fd0Field v) (fs0Field v) (fs1Field v) := by
  unfold decodeTwoSource at h
  repeat' split at h
  all_goals cases h
  rfl

theorem decodeXgcd_eq_ok {v : Word} {i : Instr} (h : decodeXgcd v = .ok i) :
    i = .xgcd (hField v) (fd0Field v) (fd1Field v) (fd2Field v) (fs0Field v) (fs1Field v) := by
  unfold decodeXgcd at h
  split at h <;> cases h
  rfl

theorem decodeKeygen_eq_ok {v : Word} {i : Instr} (h : decodeKeygen v = .ok i) :
    i = .keygen (fd0Field v) (fd1Field v) (fd2Field v) (fs0Field v) (fs1Field v) := by
  unfold decodeKeygen at h
  repeat' split at h
  all_goals cases h
  rfl

theorem decodeExpmod_eq_ok {v : Word} {i : Instr} (h : decodeExpmod v = .ok i) :
    i = .expmod (fd0Field v) (fs0Field v) (fs1Field v) (fs2Field v) := by
  unfold decodeExpmod at h
  repeat' split at h
  all_goals cases h
  rfl

/-- The sources of a command are what its word's source fields name; only EXPMOD has a third. -/
theorem sources_of_decode {v : Word} {i : Instr} (h : decode v = .ok i) :
    Machine.sources i =
      (fs0Field v, fs1Field v, if opcField v = 0x05#8 then some (fs2Field v) else none) := by
  unfold decode at h
  split at h
  · cases h
  split at h
  case isTrue ho => rw [decodeTwoSource_eq_ok h, ho]; rfl
  split at h
  case isTrue ho => rw [decodeXgcd_eq_ok h, ho]; rfl
  split at h
  case isTrue ho => rw [decodeTwoSource_eq_ok h, ho]; rfl
  split at h
  case isTrue ho => rw [decodeKeygen_eq_ok h, ho]; rfl
  split at h
  case isTrue ho => rw [decodeExpmod_eq_ok h, ho]; rfl
  cases h

end Sys2Proof

namespace Sys2Proof.Machine

/-! ### The words that the offsets of the map read as (R42) -/

/-- A concatenation as a number: the high part above the low part's `n` bits. -/
theorem toNat_append_eq_add {m n : Nat} (x : BitVec m) (y : BitVec n) :
    (x ++ y).toNat = x.toNat * 2 ^ n + y.toNat := by
  rw [BitVec.toNat_append, ← Nat.shiftLeft_add_eq_or_of_lt y.isLt, Nat.shiftLeft_eq]

theorem cfgWord_eq_ofNat (p : Params) :
    cfgWord p = BitVec.ofNat 32 (p.width * 2 ^ 16 + 0x0801) := by
  apply BitVec.eq_of_toNat_eq
  simp only [cfgWord, toNat_append_eq_add, BitVec.toNat_ofNat]
  omega

theorem Block.statusWord_eq_ofNat {w : Nat} (b : Block w) :
    b.statusWord = BitVec.ofNat 32 (b.coll.toNat * 2 ^ 8 + b.errcode.toNat * 2 ^ 4 +
      b.err.toNat * 2 ^ 2 + b.done.toNat * 2 + b.busy.toNat) := by
  have := b.errcode.isLt
  have := b.coll.toNat_lt
  have := b.err.toNat_lt
  have := b.done.toNat_lt
  have := b.busy.toNat_lt
  apply BitVec.eq_of_toNat_eq
  simp only [Block.statusWord, toNat_append_eq_add, BitVec.toNat_ofNat, BitVec.toNat_ofBool]
  omega

theorem Block.ctrlWord_eq_ofNat {w : Nat} (b : Block w) :
    b.ctrlWord = BitVec.ofNat 32 b.irqEn.toNat := by
  have := b.irqEn.toNat_lt
  apply BitVec.eq_of_toNat_eq
  simp only [Block.ctrlWord, toNat_append_eq_add, BitVec.toNat_ofNat, BitVec.toNat_ofBool]
  omega

theorem getWord_eq_ofNat {w : Nat} (x : BitVec w) (j : Nat) :
    getWord x j = BitVec.ofNat 32 (uval x / 2 ^ (32 * j)) := by
  rw [getWord, BitVec.extractLsb', Nat.shiftRight_eq_div_pow, uval]

/-! ### Host reads -/

theorem slotAt_dataWord (p : Params) (k : Reg) {j : Nat} (hj : j < p.words) :
    slotAt p.words (0x100 + 0x100 * k.val + 4 * j) = .data k j :=
  slotAt_data k p.words_ok.2 hj

theorem Block.hostRead_bad (p : Params) (b : Block p.width) {off size : Nat}
    (h : size ≠ 4 ∨ off % 4 ≠ 0) : b.hostRead p off size = none := by
  simp [Block.hostRead, (badAccess_iff off size).2 h]

theorem Block.hostRead_aligned (p : Params) (b : Block p.width) {off : Nat} (h : off % 4 = 0) :
    b.hostRead p off 4 = some (b.readSlot p (slotAt p.words off)) := by
  simp [Block.hostRead, (goodAccess_iff off 4).2 ⟨rfl, h⟩]

theorem Block.hostRead_data (p : Params) (b : Block p.width) (k : Reg) {j : Nat} (hj : j < p.words) :
    b.hostRead p (0x100 + 0x100 * k.val + 4 * j) 4 = some (getWord (b.reg k) j) := by
  rw [b.hostRead_aligned p (by omega), slotAt_dataWord p k hj, Block.readSlot]

/-- What is neither a register of the map nor a data word is reserved (R41). -/
theorem slotAt_reserved {p : Params} {off : Nat} (ha : off % 4 = 0)
    (hn : off ∉ [0x000, 0x004, 0x008, 0x010, 0x014, 0x018])
    (hd : ∀ (k : Reg) (j : Nat), j < p.words → off ≠ 0x100 + 0x100 * k.val + 4 * j) :
    slotAt p.words off = .reserved := by
  obtain ⟨rfl, -⟩ | ⟨rfl, -⟩ | ⟨rfl, -⟩ | ⟨rfl, -⟩ | ⟨rfl, -⟩ | ⟨rfl, -⟩ | ⟨k, j, -, hj, ho⟩ | ⟨h, -⟩ :=
    slotAt_cases p.words off
  iterate 6 · simp at hn
  · exact absurd (by omega) (hd k j hj)
  · exact h

/-- Settles O9: each offset of the map has one slot, and each slot's word is the number R42 gives. -/
theorem hostReadsFollowTheMap : Obligations.HostReadsFollowTheMap := by
  unfold Obligations.HostReadsFollowTheMap
  intro p b off size
  refine ⟨b.hostRead_bad p, ?_⟩
  rintro rfl ha
  refine ⟨?id, ?cfg, ?maxtry, ?cmd, ?status, ?ctrl, ?data, ?reserved⟩
  case id => rintro rfl; rfl
  case cfg => rintro rfl; exact congrArg some (cfgWord_eq_ofNat p)
  case maxtry => rintro rfl; rfl
  case cmd => rintro rfl; rfl
  case status => rintro rfl; exact congrArg some b.statusWord_eq_ofNat
  case ctrl => rintro rfl; exact congrArg some b.ctrlWord_eq_ofNat
  case data =>
    rintro k j hj rfl
    rw [b.hostRead_data p k hj, getWord_eq_ofNat]
  case reserved =>
    intro hn hd
    rw [b.hostRead_aligned p ha, slotAt_reserved ha hn hd, Block.readSlot]

/-- Byte lane i of word j of a register is its byte 4j + i (R44). -/
theorem byteLane_getWord {w : Nat} (x : BitVec w) (j : Nat) {i : Nat} (hi : i < 4) :
    byteLane (getWord x j) i = x.extractLsb' (8 * (4 * j + i)) 8 := by
  apply BitVec.eq_of_getLsbD_eq
  intro n hn
  rw [byteLane, getWord, BitVec.getLsbD_extractLsb', BitVec.getLsbD_extractLsb',
    BitVec.getLsbD_extractLsb']
  have hlane : 8 * i + n < 32 := by omega
  simp [hn, hlane, show 32 * j + (8 * i + n) = 8 * (4 * j + i) + n by omega]

/-- Settles O10: byte n of a register is lane n mod 4 of its word n / 4. -/
theorem windowBytesAreLittleEndian : Obligations.WindowBytesAreLittleEndian := by
  unfold Obligations.WindowBytesAreLittleEndian
  intro p b k n hn
  have hword : 0x100 + 0x100 * k.val + n - (0x100 + 0x100 * k.val + n) % 4 =
      0x100 + 0x100 * k.val + 4 * (n / 4) := by omega
  have hlane : (0x100 + 0x100 * k.val + n) % 4 = n % 4 := by omega
  rw [Block.windowByte, hword, hlane, slotAt_dataWord p k (by omega), Block.readSlot,
    byteLane_getWord _ _ (by omega), Nat.div_add_mod]

/-! ### Host writes to data words and to CMD -/

theorem Block.hostWrite_data_idle (p : Params) (b : Block p.width) (k : Reg) {j : Nat} (v : Word)
    (hb : b.busy = false) (hj : j < p.words) :
    b.hostWrite p (0x100 + 0x100 * k.val + 4 * j) 4 v =
      some (b.setReg k (putWord (b.reg k) j v)) := by
  rw [b.hostWrite_aligned p v (by omega), slotAt_dataWord p k hj]
  simp [Block.writeSlot, hb]

theorem Block.hostWrite_data_busy (p : Params) (b : Block p.width) (k : Reg) {j : Nat} (v : Word)
    (hb : b.busy = true) (hj : j < p.words) :
    b.hostWrite p (0x100 + 0x100 * k.val + 4 * j) 4 v = some b.collide := by
  rw [b.hostWrite_aligned p v (by omega), slotAt_dataWord p k hj]
  simp [Block.writeSlot, hb]

theorem Block.hostWrite_cmd_busy (p : Params) (b : Block p.width) (v : Word) (hb : b.busy = true) :
    b.hostWrite p 0x010 4 v = some b.collide := by
  rw [b.hostWrite_aligned p v (by decide)]
  simp [slotAt, Block.writeSlot, hb]

/-- Settles O12: the register written is `putWord` of the old one, whose bits are the word's or kept. -/
theorem idleDataWriteReplacesOneWord : Obligations.IdleDataWriteReplacesOneWord := by
  unfold Obligations.IdleDataWriteReplacesOneWord
  intro p b k j v hb hj
  exact ⟨putWord (b.reg k) j v, fun n hn => getLsbD_putWord _ _ _ hn,
    b.hostWrite_data_idle p k v hb hj⟩

/-- A write of word j of D[k] leaves what every other slot reads as. -/
theorem Block.readSlot_putWord_ne {p : Params} (b : Block p.width) {k : Reg} {j : Nat} (v : Word)
    {t : Slot} (hne : t ≠ .data k j) (hw : ∀ k' j', t = .data k' j' → j' < p.words) :
    (b.setReg k (putWord (b.reg k) j v)).readSlot p t = b.readSlot p t := by
  cases t with
  | data k' j' =>
    simp only [Block.readSlot]
    by_cases hk : k = k'
    · subst hk
      have hj : j' ≠ j := fun h => hne (h ▸ rfl)
      rw [Block.reg_setReg_self, getWord_putWord_ne _ _ (hw _ _ rfl) hj]
    · rw [Block.reg_setReg_ne _ _ hk]
  | _ => rfl

/-- A data slot stands at the offset of its word. -/
theorem slotAt_eq_data {words off : Nat} {k : Reg} {j : Nat} (h : slotAt words off = .data k j) :
    j < words ∧ off = 0x100 + 0x100 * k.val + 4 * j + off % 4 := by
  obtain ⟨-, h'⟩ | ⟨-, h'⟩ | ⟨-, h'⟩ | ⟨-, h'⟩ | ⟨-, h'⟩ | ⟨-, h'⟩ | ⟨k', j', h', hj, ho⟩ | ⟨h', -⟩ :=
    slotAt_cases words off
  all_goals
    rw [h'] at h
    cases h
  exact ⟨hj, ho⟩

/-- Settles O13: the slot written reads back the word put, and no other offset is that slot. -/
theorem dataWordReadsBackAndOthersKeep : Obligations.DataWordReadsBackAndOthersKeep := by
  unfold Obligations.DataWordReadsBackAndOthersKeep
  intro p b c k j v hb hj hwrite
  obtain rfl : b.setReg k (putWord (b.reg k) j v) = c :=
    Option.some.inj ((b.hostWrite_data_idle p k v hb hj).symm.trans hwrite)
  constructor
  · rw [Block.hostRead_data p _ k hj, Block.reg_setReg_self, getWord_putWord_self _ _ hj]
  · intro off size hne
    by_cases hgood : size = 4 ∧ off % 4 = 0
    · obtain ⟨rfl, ha⟩ := hgood
      rw [Block.hostRead_aligned p _ ha, Block.hostRead_aligned p _ ha, Block.readSlot_putWord_ne]
      · intro hs
        have := (slotAt_eq_data hs).2
        omega
      · exact fun k' j' hs => (slotAt_eq_data hs).1
    · have hbad : size ≠ 4 ∨ off % 4 ≠ 0 := by omega
      rw [Block.hostRead_bad p _ hbad, Block.hostRead_bad p _ hbad]

/-- What a legal word latches, in terms of its own source fields (R48). -/
theorem Block.latchFor_of_decode {w : Nat} (b : Block w) {v : Word} {i : Instr} (h : decode v = .ok i) :
    b.latchFor v i =
      { cmd := v
        op0 := b.reg (fs0Field v)
        op1 := b.reg (fs1Field v)
        op2 := if opcField v = 0x05#8 then b.reg (fs2Field v) else 0#w } := by
  simp only [Block.latchFor, sources_of_decode h]
  split_ifs <;> rfl

/-- An illegal word accepted while idle sets CMD_LAST and the error flags alone (R48, R96). -/
theorem Block.acceptIllegal_of_idle {w : Nat} {b : Block w} (v : Word) (hb : b.busy = false) :
    b.acceptIllegal v = { b with cmdLast := v, done := true, err := true, errcode := 3#4 } := by
  cases b
  cases hb
  rfl

/-- Settles O14: an idle write to CMD is `Block.accept`, and a legal word's sources are its fields'. -/
theorem cmdWriteWhileIdleAccepts : Obligations.CmdWriteWhileIdleAccepts := by
  unfold Obligations.CmdWriteWhileIdleAccepts
  intro p b v hb
  rw [b.hostWrite_cmd_idle p v hb]
  constructor
  · intro hl
    rw [b.accept_illegal hl, Block.acceptIllegal_of_idle v hb]
  · intro hl
    obtain ⟨i, hd, hwf⟩ := (legal_iff v).1 hl
    rw [b.accept_legal hd hwf, Block.acceptLegal, b.latchFor_of_decode hd]
    rfl

/-- Settles O15: while busy CMD and the data words collide, and STATUS and CTRL do as when idle. -/
theorem writesWhileBusyAreDropped : Obligations.WritesWhileBusyAreDropped := by
  unfold Obligations.WritesWhileBusyAreDropped
  intro p b v hb
  refine ⟨b.hostWrite_cmd_busy p v hb, fun k j => b.hostWrite_data_busy p k v hb, ?status, ?irqEn,
    ?reset⟩
  case status => rw [b.hostWrite_status, b.statusWrite_eq_ite]
  case irqEn => intro hv; rw [b.hostWrite_ctrl, b.ctrlWrite_irqEn hv]
  case reset => intro hv; rw [b.hostWrite_ctrl, b.ctrlWrite_reset hv]

end Sys2Proof.Machine

/-! ## The turns of the hosts and of the engine (20_memory.md) -/

namespace Sys2Proof.Machine

/-! ### A host's turn -/

theorem nextTurn_of_head? {s : State} {t : Turn} (h : s.schedule.head? = some t) :
    s.nextTurn = some t := by
  obtain ⟨sch, hs⟩ := List.head?_eq_some_iff.1 h
  simp [State.nextTurn, hs]

theorem step_of_turn {s : State} {t : Turn} (h : s.nextTurn = some t) :
    step s = takeTurn t s.popTurn := by
  rw [step, h]

/-- It is host n's turn, and `op` is its next operation. -/
structure HostTurn (s : State) (n : Nat) (h : HostState) (op : HostOp) (ops : List HostOp) : Prop where
  turn : s.nextTurn = some (.host n)
  host : s.hosts[n]? = some h
  good : h.faulted = false
  next : h.ops = op :: ops

theorem HostTurn.step_eq {s : State} {n : Nat} {h : HostState} {op : HostOp} {ops : List HostOp}
    (ht : HostTurn s n h op ops) : step s = performOp s.popTurn n h op := by
  simp [step_of_turn ht.turn, takeTurn, hostMove, ht.host, ht.good, ht.next]

/-- The one record a host's operation can change is its own, and only a BusError faults it (R62). -/
theorem performOp_hosts {s t : State} {n : Nat} {h : HostState} {op : HostOp}
    (hp : performOp s n h op = .next t) :
    t.hosts = s.hosts ∨ ∃ h', t.hosts = s.hosts.set n h' ∧
      (h'.faulted = true → h.faulted = false → ∃ addr size,
        (op = .read addr size ∨ ∃ v, op = .write addr size v) ∧
          badAccess (addr - s.params.base) size = true) := by
  obtain h1 | ⟨h', h1, hbad⟩ | ⟨h1, -⟩ | ⟨addr, v, -, -, -, -, h1⟩ := performOp_cases s n h op
  all_goals
    rw [h1] at hp
    cases hp
  · exact .inl rfl
  · exact .inr ⟨h', rfl, hbad⟩
  · exact .inr ⟨h.opDone, rfl, fun hf hg => absurd hf (by simp [hg])⟩

/-- The engine never leaves the window and touches no host. -/
theorem engineMove_hosts (s : State) : engineMove s ≠ .fault .outsideWindow ∧
    ∀ t, engineMove s = .next t → t.hosts = s.hosts := by
  unfold engineMove
  split
  · obtain ⟨i, hf, -⟩ | ⟨hf, -⟩ := fetch_cases s
    · obtain ⟨r, g, he, -⟩ := exec_cases i s
      simp only [hf, he]
      exact ⟨nofun, by rintro t ⟨⟩; rfl⟩
    · simp [hf]
  · exact ⟨nofun, by rintro t ⟨⟩; rfl⟩

/-- A step is an operation of a host, or it does not leave the window and touches no host. -/
theorem step_turn_cases (s : State) :
    (∃ n h op ops, HostTurn s n h op ops) ∨
      (step s ≠ .fault .outsideWindow ∧ ∀ t, step s = .next t → t.hosts = s.hosts) := by
  have stay : ∀ u : State, u.hosts = s.hosts → step s = .next u →
      step s ≠ .fault .outsideWindow ∧ ∀ t, step s = .next t → t.hosts = s.hosts := by
    intro u hu h
    rw [h]
    exact ⟨nofun, by rintro t ⟨⟩; exact hu⟩
  cases ht : s.nextTurn with
  | none => exact .inr (stay s rfl (by rw [step, ht]))
  | some t =>
    have hstep := step_of_turn ht
    cases t with
    | hardReset => exact .inr (stay s.popTurn.hardReset rfl hstep)
    | engine =>
      rw [takeTurn] at hstep
      rw [hstep]
      exact .inr (engineMove_hosts s.popTurn)
    | host n =>
      rw [takeTurn, hostMove] at hstep
      cases hh : s.hosts[n]? with
      | none => exact .inr (stay s.popTurn rfl (by simpa [hh] using hstep))
      | some h =>
        cases hf : h.faulted with
        | true => exact .inr (stay s.popTurn rfl (by simpa [hh, hf] using hstep))
        | false =>
          cases ho : h.ops with
          | nil => exact .inr (stay s.popTurn rfl (by simpa [hh, hf, ho] using hstep))
          | cons op ops => exact .inl ⟨n, h, op, ops, ht, hh, hf, ho⟩

/-! ### Accesses that stop, that fault their host, and that read (R42, R45, R53) -/

theorem performOp_outside {s : State} {n : Nat} {h : HostState} {op : HostOp} {addr size : Nat}
    (hop : op = .read addr size ∨ ∃ v, op = .write addr size v) (hw : inWindow s.params addr = false) :
    performOp s n h op = .fault .outsideWindow := by
  obtain rfl | ⟨v, rfl⟩ := hop <;> simp [performOp, hw]

theorem performOp_bad {s : State} {n : Nat} {h : HostState} {op : HostOp} {addr size : Nat}
    (hop : op = .read addr size ∨ ∃ v, op = .write addr size v) (hw : inWindow s.params addr = true)
    (hb : badAccess (addr - s.params.base) size = true) :
    performOp s n h op = .next (s.setHost n h.opFault) := by
  obtain rfl | ⟨v, rfl⟩ := hop <;> simp [performOp, hw, Block.hostRead, Block.hostWrite, hb]

theorem performOp_read {s : State} {n : Nat} {h : HostState} {addr size : Nat} {v : Word}
    (hw : inWindow s.params addr = true)
    (hr : s.block.hostRead s.params (addr - s.params.base) size = some v) :
    performOp s n h (.read addr size) = .next (s.setHost n (h.opRead v)) := by
  simp [performOp, hw, hr]

theorem performOp_write {s : State} {n : Nat} {h : HostState} {addr size : Nat} {v : Word}
    {b : Block s.params.width} (hw : inWindow s.params addr = true)
    (hb : s.block.hostWrite s.params (addr - s.params.base) size v = some b) :
    performOp s n h (.write addr size v) = .next ((s.withBlock b).setHost n h.opDone) := by
  simp [performOp, hw, hb]

/-- Settles O17: it is that host's turn, and its operation stops. -/
theorem accessOutsideTheWindowStops : Obligations.AccessOutsideTheWindowStops := by
  unfold Obligations.AccessOutsideTheWindowStops
  intro s n h ops addr size op hs hh hf ho hop hout
  have hw : inWindow s.params addr = false := by
    rw [← Bool.not_eq_true, inWindow_iff]
    omega
  rw [HostTurn.step_eq ⟨nextTurn_of_head? hs, hh, hf, ho⟩]
  exact performOp_outside hop hw

/-- Settles O18: it is that host's turn, and its read gives the value alone. -/
theorem readsHaveNoSideEffect : Obligations.ReadsHaveNoSideEffect := by
  unfold Obligations.ReadsHaveNoSideEffect
  intro s n h ops addr v hs hh hf ho hlow hhigh hr
  have hw : inWindow s.params addr = true := (inWindow_iff _ _).2 ⟨hlow, hhigh⟩
  rw [HostTurn.step_eq ⟨nextTurn_of_head? hs, hh, hf, ho⟩, performOp_read (s := s.popTurn) hw hr,
    HostState.opRead, ho]
  rfl

/-- A faulted host's record is kept by every step (R62). -/
theorem step_keeps_faulted {s t : State} {n : Nat} {h : HostState} (hs : step s = .next t)
    (hh : s.hosts[n]? = some h) (hf : h.faulted = true) : t.hosts[n]? = some h := by
  obtain ⟨n', h', op, ops, ht⟩ | ⟨-, hkeep⟩ := step_turn_cases s
  · rw [ht.step_eq] at hs
    have hne : n' ≠ n := by
      rintro rfl
      obtain rfl : h = h' := Option.some.inj (hh.symm.trans ht.host)
      simp [ht.good] at hf
    obtain hkeep | ⟨h'', hset, -⟩ := performOp_hosts hs
    · rw [hkeep]; exact hh
    · rw [hset, List.getElem?_set_ne hne]; exact hh
  · rw [hkeep t hs]; exact hh

theorem reaches_keeps_faulted {s t : State} {n : Nat} {h : HostState} (hr : Reaches s t)
    (hh : s.hosts[n]? = some h) (hf : h.faulted = true) : t.hosts[n]? = some h := by
  induction hr with
  | refl => exact hh
  | tail _ last ih => exact step_keeps_faulted last ih hf

/-- Settles O16: a bad access only faults its host, and a faulted host's record stays. -/
theorem busErrorIsAHostFaultForEver : Obligations.BusErrorIsAHostFaultForEver := by
  unfold Obligations.BusErrorIsAHostFaultForEver
  constructor
  · intro s n h ops addr size op ht hh hf ho hop hlow hhigh hbad
    have hw : inWindow s.params addr = true := (inWindow_iff _ _).2 ⟨hlow, hhigh⟩
    rw [HostTurn.step_eq ⟨ht, hh, hf, ho⟩,
      performOp_bad (s := s.popTurn) hop hw ((badAccess_iff _ _).2 hbad), HostState.opFault, ho]
    rfl
  · intro s t n h hr hh hf
    have hkept := reaches_keeps_faulted hr hh hf
    refine ⟨hkept, ?_⟩
    rintro ⟨-, h', hh', -, hgood⟩
    obtain rfl : h = h' := Option.some.inj (hkept.symm.trans hh')
    simp [hgood] at hf

/-! ### The engine's turn (R49) -/

theorem fetch_of_decode {s : State} {i : Instr} (hd : decode s.block.latch.cmd = .ok i)
    (hw : i.wellFormed = true) : fetch s = .ok i := by
  simp [fetch, hd, hw]

theorem step_engine {s : State} {i : Instr} (ht : s.nextTurn = some .engine)
    (hb : s.block.busy = true) (hd : decode s.block.latch.cmd = .ok i) (hw : i.wellFormed = true) :
    step s = exec i s.popTurn := by
  rw [step_of_turn ht, takeTurn, engineMove, if_pos hb, fetch_of_decode (s := s.popTurn) hd hw]

/-- Settles O36: COMPLETE of what the latch holds. -/
theorem stepCompletesTheLatchedCommand : Obligations.StepCompletesTheLatchedCommand := by
  unfold Obligations.StepCompletesTheLatchedCommand
  exact fun s i => step_engine

theorem tableWord_toNat (v : Word) : tableWord 32 v.toNat = v := by
  rw [tableWord, Nat.mod_eq_of_lt v.isLt, BitVec.ofNat_toNat, BitVec.setWidth_eq]

/-- Settles O37: the word placed is accepted, and the next turn is the engine's. -/
theorem fetchedWordRunsNext : Obligations.FetchedWordRunsNext := by
  unfold Obligations.FetchedWordRunsNext
  intro s i hwf
  have haccept : s.block.deliver (encode i) =
      Block.acceptLegal { s.block with busy := false } (encode i) i :=
    Block.accept_legal _ (decode_encode i) hwf
  rw [State.withFetchWord, tableWord_toNat, haccept]
  exact step_engine rfl rfl (decode_encode i) hwf

/-- Settles O38: the host's step is the acceptance, and the engine's step completes what it latched. -/
theorem issueThenCompleteRunsTheCommand : Obligations.IssueThenCompleteRunsTheCommand := by
  unfold Obligations.IssueThenCompleteRunsTheCommand
  intro s n h ops sch v i hs hh hf ho hb hd hwf
  have hw : inWindow s.params (s.params.base + 0x010) = true :=
    (inWindow_iff _ _).2 ⟨by omega, by omega⟩
  have hwrite : s.block.hostWrite s.params (s.params.base + 0x010 - s.params.base) 4 v =
      some (s.block.acceptLegal v i) := by
    rw [Nat.add_sub_cancel_left, s.block.hostWrite_cmd_idle _ v hb, s.block.accept_legal hd hwf]
  have ht : HostTurn s n h (.write (s.params.base + 0x010) 4 v) ops :=
    ⟨nextTurn_of_head? (by rw [hs]; rfl), hh, hf, ho⟩
  have hengine : State.nextTurn ((s.popTurn.withBlock (s.block.acceptLegal v i)).setHost n h.opDone) =
      some .engine := nextTurn_of_head? (by simp [hs])
  refine ⟨_, ht.step_eq.trans (performOp_write (s := s.popTurn) hw hwrite),
    (step_engine hengine rfl hd hwf).trans ?_⟩
  simp only [State.popTurn, hs, HostState.opDone, ho, List.tail_cons]
  rfl

/-- Settles O41: while BUSY = 1 the invariant has a legal command in the latch. -/
theorem goodStatesNeverStopOnACommand : Obligations.GoodStatesNeverStopOnACommand := by
  unfold Obligations.GoodStatesNeverStopOnACommand
  rintro s ⟨hbusy, -⟩
  obtain ⟨hs, h⟩ | h | ⟨n, hst, addr, v, ops, -, -, -, -, -, -, -, h⟩ |
    ⟨-, -, i, r, g, -, -, -, h⟩ | ⟨-, hb, hillegal, -⟩ | ⟨-, h⟩ := step_cases s
  · exact .inl ⟨_, h⟩
  · exact .inr h
  · exact .inl ⟨_, h⟩
  · exact .inl ⟨_, h⟩
  · obtain ⟨-, -, -, -, i, hd, hwf, -⟩ := hbusy hb
    simp [(legal_iff _).2 ⟨i, hd, hwf⟩] at hillegal
  · exact .inl ⟨_, h⟩

/-! ### What a running command keeps, and what a completion keeps (R49, R50, R52) -/

/-- Settles O52: of the moves of a busy block only the engine's and a reset touch more than flags. -/
theorem runningCommandIsIsolated : Obligations.RunningCommandIsIsolated := by
  unfold Obligations.RunningCommandIsIsolated
  intro s b g hs sch hb hturn hstep
  cases blockMove_of_step hstep with
  | reset => exact .inl rfl
  | keep | collide | statusWrite | setIrqEn => exact .inr ⟨hb, rfl, rfl, rfl⟩
  | complete turn => exact absurd turn hturn
  | acceptIllegal _ idle | acceptLegal _ idle | dataWrite _ idle => simp [hb] at idle

@[simp] theorem Block.complete_cmdLast {w : Nat} (b : Block w)
    (r : Except ErrorCode (List (Reg × BitVec w))) : (b.complete r).cmdLast = b.cmdLast := by
  obtain ⟨rs, -, h⟩ | ⟨e, -, h⟩ := b.complete_cases r <;> rw [h]

@[simp] theorem Block.complete_latch {w : Nat} (b : Block w)
    (r : Except ErrorCode (List (Reg × BitVec w))) : (b.complete r).latch = b.latch := by
  obtain ⟨rs, -, h⟩ | ⟨e, -, h⟩ := b.complete_cases r <;> rw [h]

theorem Block.complete_d_of_err {w : Nat} {b : Block w}
    {r : Except ErrorCode (List (Reg × BitVec w))} (he : (b.complete r).err = true) :
    (b.complete r).d = b.d := by
  obtain ⟨rs, -, h⟩ | ⟨e, -, h⟩ := b.complete_cases r <;> rw [h] at he ⊢
  cases he

/-- A completion keeps every register that is no destination (R50). -/
theorem Block.reg_complete {w : Nat} {b : Block w} {r : Except ErrorCode (List (Reg × BitVec w))}
    {dests : List Reg} (hr : ∀ rs, r = .ok rs → rs.map Prod.fst = dests) {k : Reg} (hk : k ∉ dests) :
    (b.complete r).reg k = b.reg k := by
  by_contra hne
  obtain ⟨-, rs, hrs, hmem⟩ := Block.complete_reg_ne hne
  exact hk (hr rs hrs ▸ hmem)

/-- A byte of the window outside STATUS depends on CMD_LAST, IRQ_EN and the register of its page. -/
theorem Block.windowByte_congr {p : Params} {b c : Block p.width} {off : Nat}
    (hcmd : b.cmdLast = c.cmdLast) (hirq : b.irqEn = c.irqEn) (hstatus : off / 4 ≠ 0x014 / 4)
    (hreg : ∀ k : Reg, off / 0x100 = k.val + 1 → b.reg k = c.reg k) :
    b.windowByte p off = c.windowByte p off := by
  unfold Block.windowByte
  congr 1
  obtain ⟨-, h⟩ | ⟨-, h⟩ | ⟨-, h⟩ | ⟨-, h⟩ | ⟨ho, -⟩ | ⟨-, h⟩ | ⟨k, j, h, hj, ho⟩ | ⟨h, -⟩ :=
    slotAt_cases p.words (off - off % 4)
  iterate 3 · rw [h, Block.readSlot, Block.readSlot]
  · rw [h]; exact hcmd
  · exact absurd (by omega) hstatus
  · simp only [h, Block.readSlot, Block.ctrlWord, hirq]
  · have hwords := p.words_ok.2
    simp only [h, Block.readSlot, hreg k (by omega)]
  · rw [h, Block.readSlot, Block.readSlot]

/-- Settles O34: every command's meaning is a completion with results for its destinations only. -/
theorem everyCommandEndsAndKeepsItsFrame : Obligations.EveryCommandEndsAndKeepsItsFrame := by
  unfold Obligations.EveryCommandEndsAndKeepsItsFrame
  intro i s
  obtain ⟨r, g, he, hr, hg⟩ := exec_cases i s
  refine ⟨s.block.complete r, g, he, Block.complete_busy _ r, Block.complete_done _ r,
    Block.complete_coll _ r, Block.complete_irqEn _ r, Block.complete_cmdLast _ r,
    Block.complete_latch _ r, Block.complete_d_of_err, fun k => Block.reg_complete hr,
    hg.resolve_left, fun off _ hstatus hdest => ?_⟩
  refine Block.windowByte_congr (Block.complete_cmdLast _ r) (Block.complete_irqEn _ r) hstatus ?_
  exact fun k hpage => Block.reg_complete hr fun hk => hdest k hk hpage

end Sys2Proof.Machine

/-! ## Runs whose hosts keep their duties (20_memory.md R60) -/

namespace Sys2Proof.Machine

/-! ### Dutiful steps neither collide nor fault a host (R45, R52, R120) -/

/-- A write sets COLL only by being dropped: busy, to CMD or to a data word (R26, R52). -/
theorem Block.writeSlot_coll_rises {w : Nat} {b : Block w} {t : Slot} {v : Word}
    (h0 : b.coll = false) (h1 : (b.writeSlot t v).coll = true) :
    b.busy = true ∧ (t = .cmd ∨ ∃ k j, t = .data k j) := by
  have hcases : ∀ {c : Block w}, (if b.busy then b.collide else c).coll = true → c.coll = b.coll →
      b.busy = true := by
    intro c hc hkeep
    by_contra hb
    rw [if_neg hb, hkeep, h0] at hc
    cases hc
  cases t with
  | cmd =>
    refine ⟨hcases h1 ?_, .inl rfl⟩
    obtain ⟨-, h⟩ | ⟨-, i, -, -, h⟩ := b.accept_cases v <;> simp [h]
  | data k j => exact ⟨hcases h1 rfl, .inr ⟨k, j, rfl⟩⟩
  | status => simp [Block.writeSlot, h0] at h1
  | ctrl =>
    simp only [Block.writeSlot, Block.ctrlWrite] at h1
    split at h1 <;> simp [h0] at h1
  | id | cfg | maxtry | reserved => simp [Block.writeSlot, h0] at h1

/-- A write that keeps the duties is never dropped. -/
theorem opKeepsDuty.writeSlot_coll {c : Contract} {s : State} {l : Ledger} {n addr size : Nat}
    {v : Word} (hd : opKeepsDuty c s l n (.write addr size v))
    (h1 : (s.block.writeSlot (slotAt s.params.words (addr - s.params.base)) v).coll = true) :
    s.block.coll = true := by
  obtain ⟨-, -, hcmd, hdata⟩ := hd
  by_contra h0
  obtain ⟨hb, ht | ⟨k, j, ht⟩⟩ := Block.writeSlot_coll_rises (by simpa using h0) h1
  · simp [(hcmd ht).1] at hb
  · simp [(hdata k j ht).1] at hb

/-- An access that keeps the duties is an aligned 32-bit one in the window. -/
theorem opKeepsDuty.access {c : Contract} {s : State} {l : Ledger} {n addr size : Nat} {op : HostOp}
    (hd : opKeepsDuty c s l n op) (hop : op = .read addr size ∨ ∃ v, op = .write addr size v) :
    inWindow s.params addr = true ∧ badAccess (addr - s.params.base) size = false := by
  obtain rfl | ⟨v, rfl⟩ := hop <;>
  · obtain ⟨hw, hb, -⟩ := hd
    exact ⟨hw, hb⟩

section
variable {c : Contract} {s t : State} {l m : Ledger}

theorem DutifulStep.ledger_eq (h : DutifulStep c s l t m) : m = l.next s t := by
  obtain ⟨-, -, hm⟩ := h
  exact hm

theorem keepsDuty_of_hostTurn {n : Nat} {h : HostState} {op : HostOp} {ops : List HostOp}
    (hd : s.keepsDuty c l) (ht : HostTurn s n h op ops) : opKeepsDuty c s l n op :=
  hd n h op ops ht.turn ht.host ht.good ht.next

theorem keepsDuty_stays_in_window (hd : s.keepsDuty c l) : step s ≠ .fault .outsideWindow := by
  obtain ⟨n, h, op, ops, ht⟩ | ⟨hw, -⟩ := step_turn_cases s
  · intro hs
    rw [ht.step_eq] at hs
    obtain h1 | ⟨h', h1, -⟩ | ⟨-, addr, size, hop, hout⟩ | ⟨addr, v, -, -, -, -, h1⟩ :=
      performOp_cases s.popTurn n h op
    · simp [h1] at hs
    · simp [h1] at hs
    · simp [((keepsDuty_of_hostTurn hd ht).access hop).1] at hout
    · simp [h1] at hs
  · exact hw

theorem keepsDuty_coll (hd : s.keepsDuty c l) (hs : step s = .next t) (h1 : t.block.coll = true) :
    s.block.coll = true := by
  obtain ⟨hosts, h⟩ | h | ⟨n, hst, addr, v, ops, ht, hh, hf, ho, -, -, -, h⟩ |
    ⟨-, -, i, r, g, -, -, -, h⟩ | ⟨-, -, -, h⟩ | ⟨-, h⟩ := step_cases s
  all_goals
    rw [h] at hs
    cases hs
  · exact h1
  · exact (keepsDuty_of_hostTurn hd ⟨ht, hh, hf, ho⟩).writeSlot_coll h1
  · exact Block.complete_coll s.block r ▸ h1
  · cases h1

theorem keepsDuty_faulted (hd : s.keepsDuty c l) (hs : step s = .next t) {n : Nat} {h : HostState}
    (hh : t.hosts[n]? = some h) (hf : h.faulted = true) :
    ∃ h', s.hosts[n]? = some h' ∧ h'.faulted = true := by
  obtain ⟨n', h', op, ops, ht⟩ | ⟨-, hkeep⟩ := step_turn_cases s
  · rw [ht.step_eq] at hs
    obtain hkeep | ⟨h'', hset, hbad⟩ := performOp_hosts hs
    · exact ⟨h, hkeep ▸ hh, hf⟩
    · by_cases hn : n' = n
      · subst hn
        have hlt : n' < s.hosts.length := (List.getElem?_eq_some_iff.1 ht.host).1
        rw [hset, List.getElem?_set_self hlt] at hh
        cases hh
        obtain ⟨addr, size, hop, hb⟩ := hbad hf ht.good
        simp [((keepsDuty_of_hostTurn hd ht).access hop).2] at hb
      · rw [hset, List.getElem?_set_ne hn] at hh
        exact ⟨h, hh, hf⟩
  · exact ⟨h, hkeep t hs ▸ hh, hf⟩

end

/-- Settles O54: a good state stops for an access outside the window only, which is no dutiful one, and
neither a dropped write nor a BusError is one. -/
theorem dutifulStepsNeverCollide : Obligations.DutifulStepsNeverCollide := by
  unfold Obligations.DutifulStepsNeverCollide
  intro c s l hinv hd
  obtain ⟨t, hs⟩ := (goodStatesNeverStopOnACommand s hinv).resolve_right (keepsDuty_stays_in_window hd)
  obtain ⟨b, g, hosts, sch, rfl, -⟩ := step_blockMove hs
  exact ⟨b, g, hosts, sch, hs, keepsDuty_coll hd hs, fun n h => keepsDuty_faulted hd hs⟩

/-! ### Dutiful steps keep the registers of the keys in use (R37, R60, R88, R125) -/

section
variable {c : Contract} {s t : State} {l m : Ledger}

/-- `DutifulMove s l m b`: `b` is what a step that keeps the duties makes of the block of `s`, with what it
means for the keys of the ledgers `l` before and `m` after it (`dutifulStep_move`). -/
inductive DutifulMove (s : State) (l m : Ledger) : Block s.params.width → Prop where
  /-- No register, BUSY or latch changes. -/
  | quiet {b : Block s.params.width} (d : b.d = s.block.d) (busy : b.busy = s.block.busy)
      (latch : b.latch = s.block.latch) : DutifulMove s l m b
  /-- A reset ends the use of every key (R125). -/
  | reset (keys : m.keys = []) : DutifulMove s l m (Block.reset s.params.width)
  /-- An acceptance whose destinations hold no key in use. -/
  | accept {v : Word} {i : Instr} (command : decode v = .ok i)
      (free : ∀ k ∈ destinations i, k ∉ l.keyRegs) : DutifulMove s l m (s.block.acceptLegal v i)
  /-- An idle write of a register that holds no key in use. -/
  | dataWrite {k : Reg} {x : BitVec s.params.width} (idle : s.block.busy = false)
      (free : k ∉ l.keyRegs) : DutifulMove s l m (s.block.setReg k x)
  /-- COMPLETE. -/
  | complete {i : Instr} {r : Except ErrorCode (List (Reg × BitVec s.params.width))}
      (busy : s.block.busy = true) (command : decode s.block.latch.cmd = .ok i)
      (results : ∀ rs, r = .ok rs → rs.map Prod.fst = destinations i) :
      DutifulMove s l m (s.block.complete r)

theorem dutifulStep_move (h : DutifulStep c s l t m) :
    ∃ (b : Block s.params.width) (g : Rng) (hs : List HostState) (sch : List Turn),
      t = { s with block := b, rng := g, hosts := hs, schedule := sch } ∧ DutifulMove s l m b := by
  obtain ⟨hd, hs, rfl⟩ := h
  obtain ⟨hosts, h⟩ | h | ⟨n, hst, addr, v, ops, ht, hh, hf, ho, -, -, -, h⟩ |
    ⟨-, hb, i, r, g, hdec, -, hr, h⟩ | ⟨-, -, -, h⟩ | ⟨ht, h⟩ := step_cases s
  all_goals
    rw [h] at hs
    cases hs
  · exact ⟨_, _, _, _, rfl, .quiet rfl rfl rfl⟩
  · refine ⟨_, _, _, _, rfl, ?_⟩
    obtain ⟨b, hw, hreg, hbusy, hlatch⟩ | ⟨hslot, hv⟩ | ⟨i, hdec, -, hfree, hw⟩ |
      ⟨hidle, k, x, hfree, hw⟩ := dutiful_write_cases (keepsDuty_of_hostTurn hd ⟨ht, hh, hf, ho⟩)
    · rw [hw]; exact .quiet hreg hbusy hlatch
    · rw [Ledger.next_write ht hh hf ho, hslot, Block.writeSlot, Block.ctrlWrite_reset _ hv]
      exact .reset (by simp [Ledger.afterWrite_keys, hv])
    · rw [hw]; exact .accept hdec hfree
    · rw [hw]; exact .dataWrite hidle hfree
  · exact ⟨_, _, _, _, rfl, .complete hb hdec hr⟩
  · exact ⟨_, _, _, _, rfl, .reset (by simp [Ledger.next, ht])⟩

/-- The running command, if any, writes no register of a key in use. -/
def Ledger.sparedBy (l : Ledger) (s : State) : Prop :=
  ∀ i, s.block.busy = true → decode s.block.latch.cmd = .ok i →
    ∀ r ∈ destinations i, r ∉ l.keyRegs

theorem DutifulMove.reg_eq {b : Block s.params.width} (hm : DutifulMove s l m b) (hl : l.sparedBy s)
    (hkeys : m.keys ≠ []) {r : Reg} (hr : r ∈ l.keyRegs) : b.reg r = s.block.reg r := by
  cases hm with
  | quiet d => rw [Block.reg, d, Block.reg]
  | reset keys => exact absurd keys hkeys
  | accept => rfl
  | dataWrite _ free => exact Block.reg_setReg_ne _ _ (by rintro rfl; exact free hr)
  | complete busy command results =>
    exact Block.reg_complete results fun hk => hl _ busy command r hk hr

/-- What runs after the move ran before it, or was accepted by it: neither writes a key of before. -/
theorem DutifulMove.spares {b : Block s.params.width} (hm : DutifulMove s l m b) (hl : l.sparedBy s)
    {i : Instr} (hb : b.busy = true) (hd : decode b.latch.cmd = .ok i) :
    ∀ r ∈ destinations i, r ∉ l.keyRegs := by
  cases hm with
  | quiet d busy latch => exact hl i (busy ▸ hb) (latch ▸ hd)
  | reset => cases hb
  | accept command free =>
    obtain rfl := Except.ok.inj (command.symm.trans hd)
    exact free
  | dataWrite idle => simp [idle] at hb
  | complete => simp at hb

/-- A step of the busy engine leaves it idle. -/
theorem step_engine_idle (ht : s.nextTurn = some .engine) (hb : s.block.busy = true)
    (hs : step s = .next t) : t.block.busy = false := by
  rw [step_of_turn ht, takeTurn, engineMove, if_pos hb] at hs
  obtain ⟨i, hf, -⟩ | ⟨hf, -⟩ := fetch_cases s.popTurn
  · obtain ⟨r, g, he, -⟩ := exec_cases i s.popTurn
    simp only [hf, he] at hs
    cases hs
    exact Block.complete_busy _ r
  · simp [hf] at hs

theorem Ledger.sparedBy_step (hl : l.sparedBy s) (h : DutifulStep c s l t m) : m.sparedBy t := by
  obtain ⟨b, g, hs, sch, rfl, hm⟩ := dutifulStep_move h
  obtain ⟨-, hstep, rfl⟩ := h
  intro i hb hd r hr hmem
  obtain ⟨key, hkey, hreg⟩ := Ledger.mem_keyRegs.1 hmem
  obtain hold | ⟨hturn, hbusy, -⟩ := (l.next_keys s _).2 key hkey
  · exact hm.spares hl hb hd r hr (Ledger.mem_keyRegs.2 ⟨key, hold, hreg⟩)
  · cases hb.symm.trans (step_engine_idle hturn hbusy hstep)

theorem Ledger.sparedBy_retire (hl : l.sparedBy s) (id : Nat) : (l.retire id).sparedBy s := by
  intro i hb hd r hr hmem
  obtain ⟨key, hkey, hreg⟩ := Ledger.mem_keyRegs.1 hmem
  exact hl i hb hd r hr (Ledger.mem_keyRegs.2 ⟨key, Ledger.mem_keys_retire hkey, hreg⟩)

theorem Ledger.wf_next (hw : l.wf) (s t : State) : (l.next s t).wf := by
  obtain ⟨hcount, hkeys⟩ := l.next_keys s t
  intro key hkey
  obtain hold | ⟨-, -, hid, hnext⟩ := hkeys key hkey
  · exact (hw key hold).trans_le hcount
  · omega

/-- What a dutiful run keeps of its ledger: numbers below the next one, and a running command that spares
the keys in use. -/
theorem DutifulReaches.keeps (hr : DutifulReaches c s l t m) (hw : l.wf) (hl : l.sparedBy s) :
    m.wf ∧ m.sparedBy t := by
  induction hr with
  | refl => exact ⟨hw, hl⟩
  | tail _ last ih =>
    obtain ⟨hw', hl'⟩ := ih hw hl
    exact ⟨last.ledger_eq ▸ Ledger.wf_next hw' _ _, Ledger.sparedBy_step hl' last⟩
  | retire _ id ih =>
    obtain ⟨hw', hl'⟩ := ih hw hl
    exact ⟨fun key hkey => hw' key (Ledger.mem_keys_retire hkey), Ledger.sparedBy_retire hl' id⟩

/-- A key still in use after a step, and not made by it, was in use before and has kept its registers. -/
theorem DutifulStep.keeps_key (h : DutifulStep c s l t m) (hl : l.sparedBy s) {key : Key}
    (hkey : key ∈ m.keys) (hid : key.id < l.count) :
    key ∈ l.keys ∧ ∀ r ∈ key.regs, uval (t.block.reg r) = uval (s.block.reg r) := by
  obtain ⟨b, g, hs, sch, rfl, hm⟩ := dutifulStep_move h
  obtain ⟨-, -, rfl⟩ := h
  obtain hold | ⟨-, -, hnew, -⟩ := (l.next_keys s _).2 key hkey
  · refine ⟨hold, fun r hr => congrArg uval ?_⟩
    exact hm.reg_eq hl (List.ne_nil_of_mem hkey) (Ledger.mem_keyRegs.2 ⟨key, hold, hr⟩)
  · omega

/-- The numbers of the ledger tell a key made in the run from one in use at its start. -/
theorem DutifulReaches.keeps_key (hr : DutifulReaches c s l t m) (hw : l.wf) (hl : l.sparedBy s) :
    l.count ≤ m.count ∧ ∀ key ∈ m.keys, key.id < l.count →
      ∀ r ∈ key.regs, uval (t.block.reg r) = uval (s.block.reg r) := by
  induction hr with
  | refl => exact ⟨le_rfl, fun _ _ _ _ _ => rfl⟩
  | tail run last ih =>
    obtain ⟨hcount, hkept⟩ := ih hw hl
    refine ⟨hcount.trans (last.ledger_eq ▸ (Ledger.next_keys _ _ _).1), fun key hkey hid r hreg => ?_⟩
    obtain ⟨hold, hstep⟩ := last.keeps_key (run.keeps hw hl).2 hkey (hid.trans_le hcount)
    exact (hstep r hreg).trans (hkept key hold hid r hreg)
  | retire _ id ih =>
    obtain ⟨hcount, hkept⟩ := ih hw hl
    exact ⟨hcount, fun key hkey => hkept key (Ledger.mem_keys_retire hkey)⟩

/-- A KEYGEN that completes without an error puts a key in use in its destinations (R37, R88). -/
theorem DutifulStep.makes_key {fd0 fd1 fd2 fs0 fs1 : Reg} (h : DutifulStep c s l t m)
    (ht : s.nextTurn = some .engine) (hb : s.block.busy = true)
    (hd : decode s.block.latch.cmd = .ok (.keygen fd0 fd1 fd2 fs0 fs1)) (he : t.block.err = false) :
    m = l.addKey [fd0, fd1, fd2] := by
  obtain ⟨-, -, rfl⟩ := h
  simp [Ledger.next, ht, Ledger.afterEngine, hd, hb, he, Ledger.afterSuccess]

end

/-- Settles O60: the run up to the first moment keeps the ledger's numbers in order and the running command
off the keys, and from there each step keeps the registers of the keys in use. -/
theorem dutifulRunsKeepTheKey : Obligations.DutifulRunsKeepTheKey := by
  unfold Obligations.DutifulRunsKeepTheKey
  constructor
  · intro c s t l m fd0 fd1 fd2 fs0 fs1 h ht hb hd he
    rw [h.makes_key ht hb hd he]
    exact ⟨_, List.mem_cons_self, rfl⟩
  · intro c s t u l m k _ hw hl hst htu key hm hk
    obtain ⟨hw', hl'⟩ := hst.keeps hw hl
    exact (htu.keeps_key hw' hl').2 key hk (hw' key hm)

end Sys2Proof.Machine


/-! ## Command words: encoding, decoding and legality (30_encoding.md) -/

namespace Sys2Proof

/-! ### Decoding, row by row (R66) -/

/-- Settles O1: `decode_encode`, which reads every field of the packed word back. -/
theorem decodeOfEncodeIsTheCommand : Obligations.DecodeOfEncodeIsTheCommand := by
  unfold Obligations.DecodeOfEncodeIsTheCommand
  exact decode_encode

theorem decodeTwoSource_eq_ok_iff {mk : Reg → Reg → Reg → Instr} {v : Word} {i : Instr} :
    decodeTwoSource mk v = .ok i ↔ hField v = false ∧ fd1Field v = 0 ∧ fd2Field v = 0 ∧
      fs2Field v = 0 ∧ i = mk (fd0Field v) (fs0Field v) (fs1Field v) := by
  unfold decodeTwoSource
  split_ifs <;> grind

theorem decodeXgcd_eq_ok_iff {v : Word} {i : Instr} :
    decodeXgcd v = .ok i ↔ fs2Field v = 0 ∧
      i = .xgcd (hField v) (fd0Field v) (fd1Field v) (fd2Field v) (fs0Field v) (fs1Field v) := by
  unfold decodeXgcd
  split_ifs <;> grind

theorem decodeKeygen_eq_ok_iff {v : Word} {i : Instr} :
    decodeKeygen v = .ok i ↔ hField v = false ∧ fs2Field v = 0 ∧
      i = .keygen (fd0Field v) (fd1Field v) (fd2Field v) (fs0Field v) (fs1Field v) := by
  unfold decodeKeygen
  split_ifs <;> grind

theorem decodeExpmod_eq_ok_iff {v : Word} {i : Instr} :
    decodeExpmod v = .ok i ↔ hField v = false ∧ fd1Field v = 0 ∧ fd2Field v = 0 ∧
      i = .expmod (fd0Field v) (fs0Field v) (fs1Field v) (fs2Field v) := by
  unfold decodeExpmod
  split_ifs <;> grind

/-- A word decodes when its reserved bits are 0 and the row of its opcode reads it. -/
theorem decode_eq_ok_iff {v : Word} {i : Instr} :
    decode v = .ok i ↔ rsvField v = 0#5 ∧
      ((opcField v = 0x01#8 ∧ decodeTwoSource .gcd v = .ok i) ∨
        (opcField v = 0x02#8 ∧ decodeXgcd v = .ok i) ∨
        (opcField v = 0x03#8 ∧ decodeTwoSource .modinv v = .ok i) ∨
        (opcField v = 0x04#8 ∧ decodeKeygen v = .ok i) ∨
        (opcField v = 0x05#8 ∧ decodeExpmod v = .ok i)) := by
  unfold decode
  split_ifs <;> simp_all

theorem encode_of_decode {v : Word} {i : Instr} (h : decode v = .ok i) : encode i = v := by
  obtain ⟨hr, hrow⟩ := decode_eq_ok_iff.1 h
  have hv := packFields_fields hr
  obtain ⟨ho, h⟩ | ⟨ho, h⟩ | ⟨ho, h⟩ | ⟨ho, h⟩ | ⟨ho, h⟩ := hrow
  · obtain ⟨hh, hd1, hd2, hs2, rfl⟩ := decodeTwoSource_eq_ok_iff.1 h
    rwa [ho, hh, hd1, hd2, hs2] at hv
  · obtain ⟨hs2, rfl⟩ := decodeXgcd_eq_ok_iff.1 h
    rwa [ho, hs2] at hv
  · obtain ⟨hh, hd1, hd2, hs2, rfl⟩ := decodeTwoSource_eq_ok_iff.1 h
    rwa [ho, hh, hd1, hd2, hs2] at hv
  · obtain ⟨hh, hs2, rfl⟩ := decodeKeygen_eq_ok_iff.1 h
    rwa [ho, hh, hs2] at hv
  · obtain ⟨hh, hd1, hd2, rfl⟩ := decodeExpmod_eq_ok_iff.1 h
    rwa [ho, hh, hd1, hd2] at hv

/-- Settles O2: a word with RSV = 0 is the pack of its fields, and those its row leaves out are 0. -/
theorem encodeOfDecodeIsTheWord : Obligations.EncodeOfDecodeIsTheWord := by
  unfold Obligations.EncodeOfDecodeIsTheWord
  exact fun v i => encode_of_decode

theorem decode_eq_ok_iff_encode {v : Word} {i : Instr} : decode v = .ok i ↔ encode i = v :=
  ⟨encode_of_decode, fun h => h ▸ decode_encode i⟩

theorem encode_injective : Function.Injective encode := fun i _ h =>
  Except.ok.inj ((decode_encode i).symm.trans (decode_eq_ok_iff_encode.2 h.symm))

/-! ### Legality (R67) -/

theorem legal_encode (i : Instr) : legal (encode i) = i.wellFormed := by
  rw [legal, decode_encode]

theorem opcField_encode (i : Instr) : opcField (encode i) = i.opcode := by
  cases i <;> exact opcField_packFields ..

theorem legal_iff_encode {v : Word} :
    legal v = true ↔ ∃ i : Instr, i.wellFormed = true ∧ encode i = v := by
  simp only [Machine.legal_iff, decode_eq_ok_iff_encode, and_comm]

theorem regField_eq_iff (m n : Nat) (v : Word) :
    regField m v = regField n v ↔ v.extractLsb' m 3 = v.extractLsb' n 3 := by
  simp only [regField, Fin.mk.injEq, BitVec.toNat_inj]

theorem regField_eq_zero_iff (n : Nat) (v : Word) :
    regField n v = 0 ↔ v.extractLsb' n 3 = 0#3 := by
  rw [Fin.ext_iff, ← BitVec.toNat_inj]
  rfl

theorem distinctDests_iff {a b c : Reg} : distinctDests a b c = true ↔ a ≠ b ∧ a ≠ c ∧ b ≠ c := by
  simp [distinctDests, and_assoc]

/-- The clauses of R67, over the fields of the word. -/
theorem legal_iff_fields (v : Word) :
    legal v = true ↔ rsvField v = 0#5 ∧
      ((opcField v = 0x01#8 ∧ hField v = false ∧ fd1Field v = 0 ∧ fd2Field v = 0 ∧ fs2Field v = 0) ∨
        (opcField v = 0x02#8 ∧ fs2Field v = 0 ∧
          distinctDests (fd0Field v) (fd1Field v) (fd2Field v) = true) ∨
        (opcField v = 0x03#8 ∧ hField v = false ∧ fd1Field v = 0 ∧ fd2Field v = 0 ∧ fs2Field v = 0) ∨
        (opcField v = 0x04#8 ∧ hField v = false ∧ fs2Field v = 0 ∧
          distinctDests (fd0Field v) (fd1Field v) (fd2Field v) = true) ∨
        (opcField v = 0x05#8 ∧ hField v = false ∧ fd1Field v = 0 ∧ fd2Field v = 0)) := by
  simp only [Machine.legal_iff, decode_eq_ok_iff, decodeTwoSource_eq_ok_iff, decodeXgcd_eq_ok_iff,
    decodeKeygen_eq_ok_iff, decodeExpmod_eq_ok_iff, and_assoc, or_and_right, exists_or, exists_and_left,
    exists_eq_left, Instr.wellFormed, and_true]


/-- The legal words of an opcode are as many as the well-formed commands of its row, which `mk` lists. -/
theorem card_legal_words {α : Type} (opc : BitVec 8) (mk : α → Instr) (hinj : Function.Injective mk)
    (hrow : ∀ i : Instr, i.wellFormed = true ∧ i.opcode = opc ↔ ∃ a, mk a = i) :
    Nat.card { v : Word // legal v = true ∧ opcField v = opc } = Nat.card α := by
  have hset : { v : Word | legal v = true ∧ opcField v = opc } = Set.range (encode ∘ mk) := by
    ext v
    constructor
    · rintro ⟨hl, ho⟩
      obtain ⟨i, hw, rfl⟩ := legal_iff_encode.1 hl
      obtain ⟨a, rfl⟩ := (hrow i).1 ⟨hw, (opcField_encode i).symm.trans ho⟩
      exact ⟨a, rfl⟩
    · rintro ⟨a, rfl⟩
      obtain ⟨hw, ho⟩ := (hrow (mk a)).2 ⟨a, rfl⟩
      exact ⟨(legal_encode _).trans hw, (opcField_encode _).trans ho⟩
  calc Nat.card { v : Word // legal v = true ∧ opcField v = opc }
      = Nat.card (Set.range (encode ∘ mk)) := Nat.card_congr (Equiv.setCongr hset)
    _ = Nat.card α := Nat.card_range_of_injective (encode_injective.comp hinj)

/-- Three distinct destinations are an embedding of three places in the registers. -/
theorem distinctDests_iff_embedding {a b c : Reg} :
    distinctDests a b c = true ↔ ∃ e : Fin 3 ↪ Reg, e 0 = a ∧ e 1 = b ∧ e 2 = c := by
  constructor
  · intro h
    obtain ⟨hab, hac, hbc⟩ := distinctDests_iff.1 h
    refine ⟨⟨![a, b, c], ?_⟩, rfl, rfl, rfl⟩
    intro m n
    fin_cases m <;> fin_cases n <;> simp [hab, hac, hbc, hab.symm, hac.symm, hbc.symm]
  · rintro ⟨e, rfl, rfl, rfl⟩
    exact distinctDests_iff.2 ⟨by simp, by simp, by simp⟩

theorem card_threeDests : Nat.card (Fin 3 ↪ Reg) = 336 := by
  rw [Nat.card_eq_fintype_card, Fintype.card_embedding_eq]
  decide

theorem threeDests_ext {e f : Fin 3 ↪ Reg} (h0 : e 0 = f 0) (h1 : e 1 = f 1) (h2 : e 2 = f 2) :
    e = f := by
  ext n
  fin_cases n <;> simp [h0, h1, h2]

/-- GCD and MODINV: one destination and two sources, all free. -/
theorem card_legal_twoSource {opc : BitVec 8} {mk : Reg → Reg → Reg → Instr}
    (hinj : ∀ {g a b g' a' b'}, mk g a b = mk g' a' b' → g = g' ∧ a = a' ∧ b = b')
    (hrow : ∀ i : Instr, i.wellFormed = true ∧ i.opcode = opc ↔ ∃ g a b, mk g a b = i) :
    Nat.card { v : Word // legal v = true ∧ opcField v = opc } = 512 := by
  rw [card_legal_words opc fun a : Reg × Reg × Reg => mk a.1 a.2.1 a.2.2]
  · simp
  · rintro ⟨g, a, b⟩ ⟨g', a', b'⟩ h
    simpa using hinj h
  · simpa using hrow

theorem card_legal_gcd : Nat.card { v : Word // legal v = true ∧ opcField v = 0x01#8 } = 512 := by
  refine card_legal_twoSource Instr.gcd.inj fun i => ?_
  cases i <;> simp [Instr.wellFormed, Instr.opcode]

theorem card_legal_xgcd : Nat.card { v : Word // legal v = true ∧ opcField v = 0x02#8 } = 43008 := by
  rw [card_legal_words 0x02#8 fun a : Bool × (Fin 3 ↪ Reg) × Reg × Reg =>
    .xgcd a.1 (a.2.1 0) (a.2.1 1) (a.2.1 2) a.2.2.1 a.2.2.2]
  · simp only [Nat.card_prod, card_threeDests]
    simp
  · rintro ⟨h, e, a, b⟩ ⟨h', e', a', b'⟩ heq
    obtain ⟨rfl, h0, h1, h2, rfl, rfl⟩ := Instr.xgcd.inj heq
    obtain rfl : e = e' := threeDests_ext h0 h1 h2
    rfl
  · intro i
    cases i <;> simp [Instr.wellFormed, Instr.opcode, distinctDests_iff_embedding]

theorem card_legal_modinv : Nat.card { v : Word // legal v = true ∧ opcField v = 0x03#8 } = 512 := by
  refine card_legal_twoSource Instr.modinv.inj fun i => ?_
  cases i <;> simp [Instr.wellFormed, Instr.opcode]

theorem card_legal_keygen : Nat.card { v : Word // legal v = true ∧ opcField v = 0x04#8 } = 21504 := by
  rw [card_legal_words 0x04#8 fun a : (Fin 3 ↪ Reg) × Reg × Reg =>
    .keygen (a.1 0) (a.1 1) (a.1 2) a.2.1 a.2.2]
  · simp only [Nat.card_prod, card_threeDests]
    simp
  · rintro ⟨e, p, q⟩ ⟨e', p', q'⟩ heq
    obtain ⟨h0, h1, h2, rfl, rfl⟩ := Instr.keygen.inj heq
    obtain rfl : e = e' := threeDests_ext h0 h1 h2
    rfl
  · intro i
    cases i <;> simp [Instr.wellFormed, Instr.opcode, distinctDests_iff_embedding]

theorem card_legal_expmod : Nat.card { v : Word // legal v = true ∧ opcField v = 0x05#8 } = 4096 := by
  rw [card_legal_words 0x05#8 fun a : Reg × Reg × Reg × Reg => .expmod a.1 a.2.1 a.2.2.1 a.2.2.2]
  · simp
  · rintro ⟨r, b, e, m⟩ ⟨r', b', e', m'⟩ h
    simpa using h
  · intro i
    cases i <;> simp [Instr.wellFormed, Instr.opcode]

/-- Settles O3: `legal_iff_fields` in terms of the word's bits, and each opcode's legal words are as many
as the well-formed commands of its row. -/
theorem legalIsTheLegalityPredicate : Obligations.LegalIsTheLegalityPredicate := by
  unfold Obligations.LegalIsTheLegalityPredicate
  refine ⟨fun v => ?_, card_legal_gcd, card_legal_xgcd, card_legal_modinv, card_legal_keygen,
    card_legal_expmod⟩
  rw [legal_iff_fields]
  simp only [rsvField, opcField, hField, fs2Field, fd2Field, fd1Field, fd0Field, distinctDests_iff,
    regField_eq_zero_iff, ne_eq, regField_eq_iff]

/-! ### The match and the mask of a row (R66) -/

theorem testBit_ite_zero (b : Bool) (k : Reg) (n : Nat) :
    Nat.testBit (if b then k else 0 : Reg).val n = (b && Nat.testBit k.val n) := by
  cases b <;> simp

theorem testBit_seven {n : Nat} (h : n < 3) : Nat.testBit 7 n = true := by
  interval_cases n <;> rfl

/-- The pack of some fields of `v`, with 0 for those left out (H, FS2, FD2 and FD1 can be), has the bits of
`v` that those fields cover. -/
theorem packFields_kept (opc : BitVec 8) (h s2 d2 d1 : Bool) (v : Word) :
    packFields opc (h && hField v) (if s2 then fs2Field v else 0) (fs1Field v) (fs0Field v)
        (if d2 then fd2Field v else 0) (if d1 then fd1Field v else 0) (fd0Field v) =
      packFields opc false 0 0 0 0 0 0 |||
        v &&& packFields 0#8 h (if s2 then 7 else 0) 7 7 (if d2 then 7 else 0) (if d1 then 7 else 0) 7 := by
  apply BitVec.eq_of_getLsbD_eq
  intro n hn
  simp only [BitVec.getLsbD_or, BitVec.getLsbD_and, getLsbD_packFields, testBit_ite_zero, hField,
    fs2Field, fs1Field, fs0Field, fd2Field, fd1Field, fd0Field, testBit_regField]
  interval_cases n <;> simp [testBit_seven, Bool.and_comm]

/-- A word matches under a mask when setting its masked bits to the match's gives the word back. -/
theorem and_mask_eq_iff {v m k : Word} (hm : m &&& k = m) : v &&& k = m ↔ m ||| v &&& ~~~k = v := by
  constructor
  · rintro rfl
    rw [← BitVec.and_or_distrib_left, BitVec.or_not_self, BitVec.and_allOnes]
  · intro h
    calc v &&& k = (m ||| v &&& ~~~k) &&& k := by rw [h]
      _ = m := by rw [BitVec.and_or_distrib_right, BitVec.and_assoc, BitVec.not_and_self, hm]; simp

/-- The command whose word is `v` with the masked bits set to the match's is what `v` decodes to exactly
when `v` has the row's shape. -/
theorem and_mask_eq_iff_decode {v m k : Word} {i : Instr} (hm : m &&& k = m)
    (hi : encode i = m ||| v &&& ~~~k) : v &&& k = m ↔ decode v = .ok i := by
  rw [and_mask_eq_iff hm, decode_eq_ok_iff_encode, hi]

/-- A legal word's opcode is that of a row (R66, R68). -/
theorem opcField_of_legal {v : Word} (h : legal v = true) :
    opcField v ≠ 0#8 ∧ (opcField v).toNat ≤ 5 := by
  obtain ⟨i, -, rfl⟩ := legal_iff_encode.1 h
  rw [opcField_encode]
  cases i <;> simp [Instr.opcode]

/-- Settles O4: the command of each row, with the fields of the word, encodes to the row's match with the
word's bits outside the mask. -/
theorem rowShapesAreTheirMatchAndMask : Obligations.RowShapesAreTheirMatchAndMask := by
  unfold Obligations.RowShapesAreTheirMatchAndMask
  intro v
  refine ⟨?gcd, ?xgcd, ?modinv, ?keygen, ?expmod, ?illegal⟩
  case gcd => exact and_mask_eq_iff_decode rfl (packFields_kept 0x01#8 false false false false v)
  case xgcd => exact and_mask_eq_iff_decode rfl (packFields_kept 0x02#8 true false true true v)
  case modinv => exact and_mask_eq_iff_decode rfl (packFields_kept 0x03#8 false false false false v)
  case keygen => exact and_mask_eq_iff_decode rfl (packFields_kept 0x04#8 false false true true v)
  case expmod => exact and_mask_eq_iff_decode rfl (packFields_kept 0x05#8 false true false false v)
  case illegal =>
    intro hout
    by_contra hl
    obtain ⟨hzero, hfive⟩ := opcField_of_legal (by simpa using hl)
    obtain h | h := hout
    · exact hzero h
    · exact absurd hfive (by simpa [opcField] using h)

/-! ### The word of a command as a number (R71) -/

theorem packFields_eq_append (opc : BitVec 8) (h : Bool) (fs2 fs1 fs0 fd2 fd1 fd0 : Reg) :
    packFields opc h fs2 fs1 fs0 fd2 fd1 fd0 =
      opc ++ BitVec.ofBool h ++ 0#5 ++ BitVec.ofNat 3 fs2 ++ BitVec.ofNat 3 fs1 ++ BitVec.ofNat 3 fs0 ++
        BitVec.ofNat 3 fd2 ++ BitVec.ofNat 3 fd1 ++ BitVec.ofNat 3 fd0 := by
  apply BitVec.eq_of_getLsbD_eq
  intro n hn
  rw [getLsbD_packFields]
  simp only [BitVec.getLsbD_append]
  interval_cases n <;> simp

/-- The formula of R71, over the fields. -/
theorem packFields_toNat (opc : BitVec 8) (h : Bool) (fs2 fs1 fs0 fd2 fd1 fd0 : Reg) :
    (packFields opc h fs2 fs1 fs0 fd2 fd1 fd0).toNat = opc.toNat * 2 ^ 24 + h.toNat * 2 ^ 23 +
      fs2 * 2 ^ 15 + fs1 * 2 ^ 12 + fs0 * 2 ^ 9 + fd2 * 2 ^ 6 + fd1 * 2 ^ 3 + fd0 := by
  simp only [packFields_eq_append, Machine.toNat_append_eq_add, BitVec.toNat_ofNat, BitVec.toNat_ofBool]
  omega

/-- Settles O6: the formula of R71 at each row's opcode, with 0 for the fields it leaves out. -/
theorem commandWordsFollowTheFormula : Obligations.CommandWordsFollowTheFormula := by
  unfold Obligations.CommandWordsFollowTheFormula
  refine ⟨fun g a b => ?_, fun h g x y a b => ?_, fun i a m => ?_, fun n e d p q => ?_,
    fun r b e m => ?_⟩ <;> simp [encode, packFields_toNat, Instr.opcode]

/-- Settles O5: each word is the word of its command, by evaluation of `encode`. -/
theorem writtenOutWordsDecode : Obligations.WrittenOutWordsDecode := by
  unfold Obligations.WrittenOutWordsDecode
  simp only [decode_eq_ok_iff_encode]
  decide

/-! ### The hint (R64) -/

/-- Settles O23: `exec` drops H, and a command's word has bit 23 set for an XGCD only. -/
theorem hintNeverChangesAResult : Obligations.HintNeverChangesAResult := by
  unfold Obligations.HintNeverChangesAResult
  refine ⟨fun s fd0 fd1 fd2 fs0 fs1 => rfl, fun v hh hl => ?_⟩
  obtain ⟨i, -, rfl⟩ := legal_iff_encode.1 hl
  have hhint : hField (encode i) = true := hh
  refine (opcField_encode i).trans ?_
  cases i with
  | xgcd => rfl
  | gcd | modinv | keygen | expmod => simp [encode, hField_packFields] at hhint

end Sys2Proof

/-! ## The assembler (30_encoding.md) -/

namespace Sys2Proof.Machine

theorem AsmLine.assemble_eq {l : AsmLine} {i : Instr} (h : l.instr = some i) :
    l.assemble = if i.wellFormed then some (encode i) else none := by
  simp only [AsmLine.assemble, h, legal_encode]

/-- Settles O7: the three lines stand for the same command, which has one destination. -/
theorem encryptAndDecryptExpandToExpmod : Obligations.EncryptAndDecryptExpandToExpmod := by
  unfold Obligations.EncryptAndDecryptExpandToExpmod
  intro a b c d
  have hline : ∀ m : Mnemonic, AsmLine.instr ⟨m, [a, b, c, d]⟩ = some (.expmod a b c d) →
      AsmLine.assemble ⟨m, [a, b, c, d]⟩ = some (encode (.expmod a b c d)) :=
    fun m h => AsmLine.assemble_eq h
  rw [hline .encrypt rfl, hline .decrypt rfl, hline .expmod rfl]
  exact ⟨rfl, rfl, rfl⟩

/-! ### Printed lines are parsed back (R71, R74) -/

theorem Mnemonic.toLower_text (m : Mnemonic) :
    (m.text.map Char.toLower).map Char.toLower = m.text.map Char.toLower := by
  cases m <;> rfl

theorem Mnemonic.text_ne_nil (m : Mnemonic) : m.text ≠ [] := by
  cases m <;> decide

theorem Mnemonic.text_not_blank (m : Mnemonic) : ∀ c ∈ m.text.map Char.toLower, isBlank c = false := by
  have hall : (m.text.map Char.toLower).all (fun c => !isBlank c) = true := by
    cases m <;> rfl
  simpa only [List.all_eq_true, Bool.not_eq_true'] using hall

theorem parseMnemonic_text (m : Mnemonic) : parseMnemonic (m.text.map Char.toLower) = some m := by
  cases m <;> decide

theorem toLower_regText (k : Reg) : (regText k).map Char.toLower = regText k := by
  fin_cases k <;> rfl

theorem toLower_regsText (ks : List Reg) : (regsText ks).map Char.toLower = regsText ks := by
  fun_induction regsText ks with
  | case1 => rfl
  | case2 k => exact toLower_regText k
  | case3 k ks hne ih =>
    rw [List.map_append, List.map_append, toLower_regText, ih]
    rfl

theorem isBlank_digit (k : Reg) : isBlank (Char.ofNat (48 + k.val)) = false := by
  fin_cases k <;> decide

/-- The registers of a line end in a digit. -/
theorem regsText_ends {ks : List Reg} (h : ks ≠ []) :
    ∃ cs c, regsText ks = cs ++ [c] ∧ isBlank c = false := by
  fun_induction regsText ks with
  | case1 => exact absurd rfl h
  | case2 k => exact ⟨['d'], _, rfl, isBlank_digit k⟩
  | case3 k ks hne ih =>
    obtain ⟨cs, c, hcs, hc⟩ := ih hne
    exact ⟨regText k ++ [',', ' '] ++ cs, c, by simp [hcs], hc⟩

theorem splitCommas_append {p : List Char} (cs : List Char) (h : ',' ∉ p) :
    splitCommas (p ++ ',' :: cs) = p :: splitCommas cs := by
  induction p with
  | nil => rfl
  | cons c p ih =>
    obtain ⟨hc, hp⟩ := List.ne_and_not_mem_of_not_mem_cons h
    simp [splitCommas, ih hp, hc.symm]

theorem splitCommas_of_not_mem {p : List Char} (h : ',' ∉ p) : splitCommas p = [p] := by
  induction p with
  | nil => rfl
  | cons c p ih =>
    obtain ⟨hc, hp⟩ := List.ne_and_not_mem_of_not_mem_cons h
    simp [splitCommas, ih hp, hc.symm]

theorem comma_not_mem_regText (k : Reg) : ',' ∉ ' ' :: regText k := by
  fin_cases k <;> decide

/-- Each register of a line is a piece between commas, after one blank. -/
theorem splitCommas_regsText {ks : List Reg} (h : ks ≠ []) :
    splitCommas (' ' :: regsText ks) = ks.map fun k => ' ' :: regText k := by
  fun_induction regsText ks with
  | case1 => exact absurd rfl h
  | case2 k => exact splitCommas_of_not_mem (comma_not_mem_regText k)
  | case3 k ks hne ih =>
    rw [List.map_cons, ← ih hne, ← splitCommas_append _ (comma_not_mem_regText k)]
    simp

theorem parseReg_regText (k : Reg) : parseReg (trimBlanks (' ' :: regText k)) = some k := by
  fin_cases k <;> decide

theorem mapM_parseReg (ks : List Reg) :
    (ks.map fun k => ' ' :: regText k).mapM (fun piece => parseReg (trimBlanks piece)) = some ks := by
  induction ks with
  | nil => rfl
  | cons k ks ih => simp [parseReg_regText, ih]

theorem dropWhile_isBlank_eq_self {cs : List Char} (h : ∀ c ∈ cs.head?, isBlank c = false) :
    cs.dropWhile isBlank = cs := by
  cases cs with
  | nil => rfl
  | cons c cs => exact List.dropWhile_cons_of_neg (by simp [h c rfl])

theorem trimBlanks_eq_self {cs : List Char} (hhead : ∀ c ∈ cs.head?, isBlank c = false)
    (hlast : ∀ c ∈ cs.getLast?, isBlank c = false) : trimBlanks cs = cs := by
  rw [trimBlanks, dropWhile_isBlank_eq_self hhead, dropWhile_isBlank_eq_self, List.reverse_reverse]
  simpa using hlast

/-- A line as it is printed, in lower case (`toLower_print`). -/
def AsmLine.lower (l : AsmLine) : List Char :=
  l.mnemonic.text.map Char.toLower ++ ' ' :: regsText l.regs

theorem AsmLine.toLower_print (l : AsmLine) : l.print.map Char.toLower = l.lower := by
  simp [AsmLine.print, AsmLine.lower, toLower_regsText]

theorem AsmLine.toLower_lower (l : AsmLine) : l.lower.map Char.toLower = l.lower := by
  rw [AsmLine.lower, List.map_append, Mnemonic.toLower_text, List.map_cons, toLower_regsText]
  rfl

theorem AsmLine.trimBlanks_lower {l : AsmLine} (h : l.regs ≠ []) : trimBlanks l.lower = l.lower := by
  apply trimBlanks_eq_self
  · intro c hc
    rw [AsmLine.lower, List.head?_append_of_ne_nil _ (by simpa using l.mnemonic.text_ne_nil)] at hc
    exact l.mnemonic.text_not_blank c (List.mem_of_mem_head? hc)
  · obtain ⟨cs, c, hcs, hc⟩ := regsText_ends h
    intro x hx
    rw [AsmLine.lower, hcs, ← List.cons_append, ← List.append_assoc, List.getLast?_concat] at hx
    exact Option.some.inj hx ▸ hc

theorem AsmLine.takeWhile_lower (l : AsmLine) :
    l.lower.takeWhile (fun c => !isBlank c) = l.mnemonic.text.map Char.toLower := by
  rw [AsmLine.lower, List.takeWhile_append_of_pos (by simpa using l.mnemonic.text_not_blank)]
  simp [isBlank]

theorem AsmLine.dropWhile_lower (l : AsmLine) :
    l.lower.dropWhile (fun c => !isBlank c) = ' ' :: regsText l.regs := by
  rw [AsmLine.lower, List.dropWhile_append_of_pos (by simpa using l.mnemonic.text_not_blank)]
  simp [isBlank]

/-- Text that is a printed line but for case parses to that line. -/
theorem parseLine_of_toLower {text : List Char} {l : AsmLine} (h : l.regs ≠ [])
    (ht : text.map Char.toLower = l.lower) : parseLine text = some l := by
  simp only [parseLine, ht, l.trimBlanks_lower h, l.takeWhile_lower, l.dropWhile_lower, parseMnemonic_text,
    splitCommas_regsText h, mapM_parseReg]

theorem disassemble_instr (i : Instr) : (disassemble i).instr = some i := by
  cases i with
  | xgcd h => cases h <;> rfl
  | gcd | modinv | keygen | expmod => rfl

theorem disassemble_regs_ne_nil (i : Instr) : (disassemble i).regs ≠ [] := by
  cases i <;> exact List.cons_ne_nil _ _

/-- Settles O8: what is printed is a mnemonic, a blank and registers, which the parser takes apart again, and
the line stands for the command. -/
theorem disassembledTextAssemblesBack : Obligations.DisassembledTextAssemblesBack := by
  unfold Obligations.DisassembledTextAssemblesBack
  intro i
  have hregs := disassemble_regs_ne_nil i
  exact ⟨parseLine_of_toLower hregs (AsmLine.toLower_print _),
    parseLine_of_toLower hregs (by rw [AsmLine.toLower_print, AsmLine.toLower_lower]),
    disassemble_instr i, AsmLine.assemble_eq (disassemble_instr i)⟩

end Sys2Proof.Machine

/-! ## Host scripts (30_encoding.md R75, R76) -/

namespace Sys2Proof.Machine

/-! ### Polling (R76) -/

theorem Block.getLsbD_statusWord_zero {w : Nat} (b : Block w) : b.statusWord.getLsbD 0 = b.busy := by
  rw [Block.statusWord, BitVec.getLsbD_append]
  simp

theorem Block.getLsbD_statusWord_one {w : Nat} (b : Block w) : b.statusWord.getLsbD 1 = b.done := by
  rw [Block.statusWord, BitVec.getLsbD_append, BitVec.getLsbD_append]
  simp

theorem HostTurn.step_wait_busy {s : State} {n : Nat} {h : HostState} {ops : List HostOp}
    (ht : HostTurn s n h .wait ops) (hb : s.block.busy = true) : step s = .next s.popTurn := by
  rw [ht.step_eq, performOp, Block.getLsbD_statusWord_zero, if_pos hb]

theorem HostTurn.step_wait_idle {s : State} {n : Nat} {h : HostState} {ops : List HostOp}
    (ht : HostTurn s n h .wait ops) (hb : s.block.busy = false) :
    step s = .next { s with
      hosts := s.hosts.set n { h with ops := ops, reads := h.reads ++ [s.block.statusWord] }
      schedule := s.schedule.tail } := by
  rw [ht.step_eq, performOp, Block.getLsbD_statusWord_zero, if_neg (by simp [hb]), HostState.opRead, ht.next]
  rfl

/-- Settles O58: a poll is a read of STATUS, whose bit 0 is BUSY. -/
theorem waitPollsWhileBusy : Obligations.WaitPollsWhileBusy := by
  unfold Obligations.WaitPollsWhileBusy
  intro s n h ops sch hs hh hf ho
  have ht : HostTurn s n h .wait ops := ⟨nextTurn_of_head? (by rw [hs]; rfl), hh, hf, ho⟩
  constructor
  · intro hb
    rw [ht.step_wait_busy hb, State.popTurn, hs, List.tail_cons]
  · intro hb
    refine ⟨s.block.statusWord, s.block.hostRead_aligned s.params (by decide), ?_⟩
    rw [ht.step_wait_idle hb, hs, List.tail_cons]

/-! ### Runs in the default order (log entry 3) -/

theorem run_zero (s : State) : Host.Core.run core 0 s = .next s := rfl

theorem run_succ {s t : State} (h : step s = .next t) (n : Nat) :
    Host.Core.run core (n + 1) s = Host.Core.run core n t := by
  have hcore : core.step s = .next t := h
  simp only [Host.Core.run, hcore]

theorem nextTurn_busy {s : State} (hs : s.schedule = []) (hb : s.block.busy = true) :
    s.nextTurn = some .engine := by
  simp [State.nextTurn, hs, hb]

/-- With no turn scheduled and the block idle, the first host moves if it has a move. -/
theorem nextTurn_first {s : State} {h : HostState} {hosts : List HostState} {op : HostOp}
    {ops : List HostOp} (hs : s.schedule = []) (hb : s.block.busy = false)
    (hh : s.hosts = h :: hosts) (hf : h.faulted = false) (ho : h.ops = op :: ops) :
    HostTurn s 0 h op ops where
  turn := by simp [State.nextTurn, hs, hb, hh, List.findIdx?_cons, HostState.runnable, hf, ho]
  host := by rw [hh]; rfl
  good := hf
  next := ho

theorem popTurn_eq_self {s : State} (hs : s.schedule = []) : s.popTurn = s := by
  rw [State.popTurn, hs, List.tail_nil, ← hs]

/-- Settles O57: the engine completes the latched command, and the wait's poll is the next move. -/
theorem waitEndsAfterTheCompletion : Obligations.WaitEndsAfterTheCompletion := by
  unfold Obligations.WaitEndsAfterTheCompletion
  rintro s h hs ops ⟨hbusy, -⟩ hsch hb hh hf ho
  obtain ⟨-, -, -, -, i, hd, hwf, -⟩ := hbusy hb
  obtain ⟨r, g, hexec, -⟩ := exec_cases i s
  have hidle : (s.block.complete r).busy = false := Block.complete_busy _ r
  have h1 : step s = .next { s with block := s.block.complete r, rng := g } := by
    rw [step_engine (nextTurn_busy hsch hb) hb hd hwf, popTurn_eq_self hsch, hexec]
  have h2 := HostTurn.step_wait_idle (s := { s with block := s.block.complete r, rng := g })
    (nextTurn_first hsch hidle hh hf ho) hidle
  refine ⟨s.block.complete r, g, (s.block.complete r).statusWord, ?_, hidle,
    (Block.getLsbD_statusWord_zero _).trans hidle, (Block.getLsbD_statusWord_one _).trans (Block.complete_done _ r)⟩
  rw [run_succ h1, run_succ h2, run_zero]
  simp only [hh, hsch, List.set_cons_zero, List.tail_nil]

/-! ### Runs of one host, with no turn scheduled -/

/-- The machine with one host, which has not faulted, and no turn scheduled. -/
abbrev State.lone (p : Params) (b : Block p.width) (g : Rng) (ops : List HostOp) (reads : List Word) :
    State where
  params := p
  block := b
  rng := g
  hosts := [{ ops := ops, reads := reads, faulted := false }]
  schedule := []

theorem State.eq_lone {s : State} {h : HostState} {ops : List HostOp} (hs : s.schedule = [])
    (hh : s.hosts = [h]) (hf : h.faulted = false) (ho : h.ops = ops) :
    s = .lone s.params s.block s.rng ops h.reads := by
  rw [State.lone, ← hs, ← ho, ← hf, ← hh]

theorem inWindow_data (p : Params) (k : Reg) {j : Nat} (hj : j < p.words) :
    inWindow p (p.base + (regOffset k + 4 * j)) = true := by
  have hwords := p.words_ok.2
  have hk := k.isLt
  rw [inWindow_iff, regOffset]
  omega

section
variable {p : Params} {b : Block p.width} {g : Rng} {ops : List HostOp} {reads : List Word}

theorem step_lone {op : HostOp} (hb : b.busy = false) :
    step (.lone p b g (op :: ops) reads) =
      performOp (.lone p b g (op :: ops) reads) 0 { ops := op :: ops, reads := reads, faulted := false } op :=
  (nextTurn_first (s := .lone p b g (op :: ops) reads) rfl hb rfl rfl rfl).step_eq

theorem step_lone_write {k : Reg} {j : Nat} {v : Word} (hb : b.busy = false) (hj : j < p.words) :
    step (.lone p b g (.write (p.base + (regOffset k + 4 * j)) 4 v :: ops) reads) =
      .next (.lone p (b.setReg k (putWord (b.reg k) j v)) g ops reads) := by
  rw [step_lone hb]
  refine performOp_write (s := .lone p b g _ reads) (inWindow_data p k hj) ?_
  rw [Nat.add_sub_cancel_left]
  exact b.hostWrite_data_idle p k v hb hj

theorem step_lone_read {k : Reg} {j : Nat} (hb : b.busy = false) (hj : j < p.words) :
    step (.lone p b g (.read (p.base + (regOffset k + 4 * j)) 4 :: ops) reads) =
      .next (.lone p b g ops (reads ++ [getWord (b.reg k) j])) := by
  rw [step_lone hb]
  refine performOp_read (s := .lone p b g _ reads) (inWindow_data p k hj) ?_
  rw [Nat.add_sub_cancel_left]
  exact b.hostRead_data p k hj

end

/-- `x` with the words `js` replaced by those of `y`. -/
def copyWords {w : Nat} (y x : BitVec w) (js : List Nat) : BitVec w :=
  js.foldl (fun x j => putWord x j (getWord y j)) x

theorem eq_of_getWord_eq {K : Nat} {x y : BitVec (32 * K)} (h : ∀ j < K, getWord x j = getWord y j) :
    x = y := by
  apply BitVec.eq_of_getLsbD_eq
  intro n hn
  have hbit := congrArg (fun v => v.getLsbD (n % 32)) (h (n / 32) (by omega))
  simpa [getWord, BitVec.getLsbD_extractLsb', Nat.mod_lt, Nat.div_add_mod] using hbit

theorem getWord_copyWords {K : Nat} (y x : BitVec (32 * K)) (js : List Nat) {j : Nat} (hj : j < K) :
    getWord (copyWords y x js) j = if j ∈ js then getWord y j else getWord x j := by
  induction js generalizing x with
  | nil => simp [copyWords]
  | cons i js ih =>
    rw [copyWords, List.foldl_cons, ← copyWords, ih]
    by_cases hij : j = i
    · subst hij
      simp [getWord_putWord_self _ _ hj]
    · simp [getWord_putWord_ne _ _ hj hij, hij]

theorem copyWords_range {K : Nat} (y x : BitVec (32 * K)) : copyWords y x (List.range K) = y :=
  eq_of_getWord_eq fun j hj => by rw [getWord_copyWords y x _ hj, if_pos (List.mem_range.2 hj)]

theorem Block.setReg_reg {w : Nat} (b : Block w) (k : Reg) : b.setReg k (b.reg k) = b := by
  simp [Block.setReg, Block.reg]

theorem Block.setReg_setReg {w : Nat} (b : Block w) (k : Reg) (x y : BitVec w) :
    (b.setReg k x).setReg k y = b.setReg k y := by
  simp [Block.setReg]

section
variable {p : Params} {g : Rng} {k : Reg} {rest : List HostOp}

/-- Writing words of `y` one after the other copies them into D[k]. -/
theorem run_lone_writes (y : BitVec p.width) {js : List Nat} (b : Block p.width) {reads : List Word}
    (hb : b.busy = false) (hjs : ∀ j ∈ js, j < p.words) :
    Host.Core.run core js.length (State.lone p b g
        (js.map (fun j => .write (p.base + (regOffset k + 4 * j)) 4 (getWord y j)) ++ rest) reads) =
      .next (State.lone p (b.setReg k (copyWords y (b.reg k) js)) g rest reads) := by
  induction js generalizing b with
  | nil =>
    rw [copyWords, List.foldl_nil, b.setReg_reg]
    rfl
  | cons j js ih =>
    obtain ⟨hj, hjs⟩ := List.forall_mem_cons.1 hjs
    refine (run_succ (step_lone_write hb hj) _).trans ((ih (b.setReg k _) hb hjs).trans ?_)
    rw [Block.setReg_setReg, Block.reg_setReg_self]
    rfl

/-- Reading words of D[k] one after the other gives them in that order. -/
theorem run_lone_reads {js : List Nat} {b : Block p.width} (reads : List Word)
    (hb : b.busy = false) (hjs : ∀ j ∈ js, j < p.words) :
    Host.Core.run core js.length (State.lone p b g
        (js.map (fun j => .read (p.base + (regOffset k + 4 * j)) 4) ++ rest) reads) =
      .next (State.lone p b g rest (reads ++ js.map (getWord (b.reg k)))) := by
  induction js generalizing reads with
  | nil =>
    simp only [List.map_nil, List.append_nil]
    rfl
  | cons j js ih =>
    obtain ⟨hj, hjs⟩ := List.forall_mem_cons.1 hjs
    refine (run_succ (step_lone_read hb hj) _).trans ((ih (reads ++ [_]) hjs).trans ?_)
    rw [List.map_cons, List.append_assoc, List.singleton_append]

end

/-- Settles O55: W/32 idle writes copy every word of the pattern. -/
theorem wrLineWritesTheWholeRegister : Obligations.WrLineWritesTheWholeRegister := by
  unfold Obligations.WrLineWritesTheWholeRegister
  intro s h k z ops rest hs hh hf hb hops ho
  obtain rfl : expandWr s.params k z = ops := by
    rw [expandLine] at hops
    split_ifs at hops
    exact Option.some.inj hops
  have hrun := run_lone_writes (g := s.rng) (k := k) (rest := rest) (reads := h.reads)
    (enc s.params.width z) s.block hb fun j => List.mem_range.1
  rw [List.length_range, copyWords_range] at hrun
  rw [State.eq_lone hs hh hf ho, hf]
  exact hrun

/-- The words of a register from the K-th down, joined, are its low 32·K bits. -/
theorem foldl_words {w : Nat} (x : BitVec w) (K acc : Nat) :
    ((List.range K).reverse.map (getWord x)).foldl (fun acc v => acc * 2 ^ 32 + v.toNat) acc =
      acc * 2 ^ (32 * K) + x.toNat % 2 ^ (32 * K) := by
  induction K generalizing acc with
  | zero => simp [Nat.mod_one]
  | succ K ih =>
    have hsplit : x.toNat % 2 ^ (32 * (K + 1)) =
        x.toNat % 2 ^ (32 * K) + 2 ^ (32 * K) * (x.toNat / 2 ^ (32 * K) % 2 ^ 32) := by
      rw [Nat.mul_succ, pow_add, Nat.mod_mul]
    have hword : (getWord x K).toNat = x.toNat / 2 ^ (32 * K) % 2 ^ 32 := by
      rw [getWord_eq_ofNat, BitVec.toNat_ofNat, uval]
    rw [List.range_succ, List.reverse_append, List.reverse_singleton, List.singleton_append, List.map_cons,
      List.foldl_cons, ih, hsplit, hword]
    ring

theorem joinWords_words {K : Nat} (x : BitVec (32 * K)) :
    joinWords (32 * K) ((List.range K).reverse.map (getWord x)) = x := by
  rw [joinWords, foldl_words, Nat.zero_mul, Nat.zero_add, Nat.mod_eq_of_lt x.isLt, BitVec.ofNat_toNat,
    BitVec.setWidth_eq]

/-- Settles O56: W/32 idle reads give the words of D[K] from the highest down, which join to it. -/
theorem rdLineReadsTheWholeRegister : Obligations.RdLineReadsTheWholeRegister := by
  unfold Obligations.RdLineReadsTheWholeRegister
  intro s h k ops rest hs hh hf hb hops ho
  obtain rfl : expandRd s.params k = ops := Option.some.inj hops
  have hrun := run_lone_reads (g := s.rng) (k := k) (rest := rest) h.reads hb
    fun j hj => List.mem_range.1 (List.mem_reverse.1 hj)
  rw [List.length_reverse, List.length_range] at hrun
  refine ⟨_, joinWords_words _, ?_⟩
  rw [State.eq_lone hs hh hf ho, hf]
  exact hrun

end Sys2Proof.Machine

/-! ## The GCD kernel (40_gcd_kernel.md) -/

namespace Sys2Proof.Machine

/-- Settles O20: the two cases of `xgcd`, with the recursive call's triple named. -/
theorem xgcdFollowsItsRecursion : Obligations.XgcdFollowsItsRecursion := by
  unfold Obligations.XgcdFollowsItsRecursion
  refine ⟨xgcd_zero, fun a b g x1 y1 ha hrec => ?_⟩
  rw [xgcd_pos b ha.ne', hrec]

/-! ### A completion without error (R49, R50) -/

theorem Block.commit_d {w : Nat} (b : Block w) (rs : List (Reg × BitVec w)) :
    (b.commit rs).d = rs.foldl (fun d r => d.set r.1.val r.2) b.d := by
  induction rs generalizing b with
  | nil => rfl
  | cons r rs ih => rw [Block.commit_cons, ih, Block.setReg_d, List.foldl_cons]

/-- The results are written in their order, and then the success flags. -/
theorem Block.complete_ok {w : Nat} (b : Block w) (rs : List (Reg × BitVec w)) :
    b.complete (.ok rs) =
      { b with
        d := rs.foldl (fun d r => d.set r.1.val r.2) b.d
        busy := false
        done := true
        err := false
        errcode := 0#4 } := by
  rw [Block.complete, Block.commit_eq, Block.commit_d]
  rfl

/-! ### GCD (R77) -/

theorem exec_gcd (fd0 fs0 fs1 : Reg) (s : State) :
    exec (.gcd fd0 fs0 fs1) s = .next (s.complete (gcdResult fd0 s.block.latch)) := rfl

theorem uval_lt {w : Nat} (v : BitVec w) : uval v < 2 ^ w := v.isLt

theorem gcdResult_eq {w : Nat} (fd0 : Reg) (l : Latch w) :
    gcdResult fd0 l = .ok [(fd0, BitVec.ofNat w (Nat.gcd (uval l.op0) (uval l.op1)))] := by
  rw [gcdResult, stdGcd_eq_gcd, enc, BitVec.ofInt_natCast]

/-- The gcd is at most the greater operand (R77), so it fits where both operands do. -/
theorem gcd_lt_of_lt {a b n : Nat} (ha : a < n) (hb : b < n) : Nat.gcd a b < n := by
  rcases a.eq_zero_or_pos with rfl | hpos
  · rwa [Nat.gcd_zero_left]
  · exact (Nat.gcd_le_left b hpos).trans_lt ha

/-- Settles O19: GCD completes with the one result `Nat.gcd`, which fits as both operands do. -/
theorem gcdWritesTheGreatestCommonDivisor : Obligations.GcdWritesTheGreatestCommonDivisor := by
  unfold Obligations.GcdWritesTheGreatestCommonDivisor
  intro s fd0 fs0 fs1
  refine ⟨?_, gcd_lt_of_lt (uval_lt _) (uval_lt _)⟩
  rw [exec_gcd, gcdResult_eq, State.complete, Block.complete_ok]
  rfl

/-! ### XGCD (R78, R79) -/

theorem exec_xgcd (h : Bool) (fd0 fd1 fd2 fs0 fs1 : Reg) (s : State) :
    exec (.xgcd h fd0 fd1 fd2 fs0 fs1) s = .next (s.complete (xgcdResult fd0 fd1 fd2 s.block.latch)) := rfl

theorem State.two_le_width (s : State) : 2 ≤ s.params.width := by
  have hwords := s.params.words_ok.1
  rw [Params.width]
  omega

/-- XGCD never takes its RANGE branch: both coefficients have a W-bit pattern (R80). -/
theorem xgcdResult_eq {w g : Nat} {x y : Int} (hw : 2 ≤ w) (fd0 fd1 fd2 : Reg) (l : Latch w)
    (h : xgcd (uval l.op0) (uval l.op1) = (g, x, y)) :
    xgcdResult fd0 fd1 fd2 l =
      .ok [(fd0, BitVec.ofNat w g), (fd1, BitVec.ofInt w x), (fd2, BitVec.ofInt w y)] := by
  obtain ⟨hx, hy⟩ := xgcd_abs_lt hw (uval_lt l.op0) (uval_lt l.op1)
  rw [h] at hx hy
  simp [xgcdResult, h, fitsSigned_of_abs_lt hx, fitsSigned_of_abs_lt hy, enc]

/-- Settles O21: XGCD completes with the triple of `xgcd`, whose coefficients fit for every W. -/
theorem xgcdWritesTheBezoutTriple : Obligations.XgcdWritesTheBezoutTriple := by
  unfold Obligations.XgcdWritesTheBezoutTriple
  intro s h fd0 fd1 fd2 fs0 fs1 g x y hxgcd
  rw [exec_xgcd, xgcdResult_eq s.two_le_width fd0 fd1 fd2 s.block.latch hxgcd, State.complete,
    Block.complete_ok]
  rfl

end Sys2Proof.Machine

/-! ## The modular inverse unit (41_modular_inverse.md) -/

namespace Sys2Proof.Machine

/-! ### A completion with an error (R50) -/

theorem Block.complete_error {w : Nat} (b : Block w) (e : ErrorCode) :
    b.complete (.error e) =
      { b with busy := false, done := true, err := true, errcode := e.code } := rfl

/-! ### `modInverse` and its two errors, in their order (R81, R102) -/

theorem modInverse_eq (a m : Nat) :
    modInverse a m =
      if (xgcd a m).1 ≠ 1 then .error .noInverse
      else if m = 0 then .error .zeroModulus
      else .ok ((xgcd a m).2.1 % m).toNat := rfl

theorem modInverse_noInverse {a m : Nat} (hg : Nat.gcd a m ≠ 1) : modInverse a m = .error .noInverse := by
  rw [modInverse_eq, if_pos (by rwa [xgcd_gcd])]

theorem modInverse_zeroModulus {a : Nat} (hg : Nat.gcd a 0 = 1) :
    modInverse a 0 = .error .zeroModulus := by
  rw [modInverse_eq, if_neg (by rwa [xgcd_gcd, not_not]), if_pos rfl]

/-! ### MODINV (R81) -/

theorem exec_modinv (fd0 fs0 fs1 : Reg) (s : State) :
    exec (.modinv fd0 fs0 fs1) s = .next (s.complete (modinvResult fd0 s.block.latch)) := rfl

theorem exec_modinv_of_error {s : State} {e : ErrorCode} (fd0 fs0 fs1 : Reg)
    (h : modInverse (uval s.block.latch.op0) (uval s.block.latch.op1) = .error e) :
    exec (.modinv fd0 fs0 fs1) s = .next { s with block :=
      { s.block with busy := false, done := true, err := true, errcode := e.code } } := by
  rw [exec_modinv, modinvResult, h, State.complete, Block.complete_error]

theorem exec_modinv_of_ok {s : State} {r : Nat} (fd0 fs0 fs1 : Reg)
    (h : modInverse (uval s.block.latch.op0) (uval s.block.latch.op1) = .ok r) :
    exec (.modinv fd0 fs0 fs1) s = .next { s with block :=
      { s.block with
        d := s.block.d.set fd0.val (BitVec.ofNat s.params.width r)
        busy := false
        done := true
        err := false
        errcode := 0#4 } } := by
  rw [exec_modinv, modinvResult, h, State.complete, Block.complete_ok, enc, BitVec.ofInt_natCast]
  rfl

/-- Settles O24: each clause is one answer of `modInverse`, and gcd(a, 0) = a makes a = 1 where m = 0. -/
theorem modinvWritesTheInverseOrReportsWhy : Obligations.ModinvWritesTheInverseOrReportsWhy := by
  unfold Obligations.ModinvWritesTheInverseOrReportsWhy
  rintro s fd0 fs0 fs1 _ _ rfl rfl
  refine ⟨fun hg => ?noInverse, fun hg hm => ?zeroModulus, fun hg hm => ?inverse⟩
  case noInverse => exact exec_modinv_of_error fd0 fs0 fs1 (modInverse_noInverse hg)
  case zeroModulus =>
    rw [hm] at hg
    have hinv : modInverse (uval s.block.latch.op0) (uval s.block.latch.op1) = .error .zeroModulus := by
      rw [hm, modInverse_zeroModulus hg]
    exact ⟨by rwa [Nat.gcd_zero_right] at hg, exec_modinv_of_error fd0 fs0 fs1 hinv⟩
  case inverse =>
    obtain ⟨r, hinv, hr, hlt, -⟩ := modInverse_ok hg hm
    exact ⟨r, hr, hlt, exec_modinv_of_ok fd0 fs0 fs1 hinv⟩

end Sys2Proof.Machine

/-! ## The RSA key generator (42_key_generator.md) -/

namespace Sys2Proof.Machine

/-! ### The checks before sampling, and φ (R84, R85) -/

theorem keyParamError_guard {w p q : Nat} (h : p = q ∨ totient p q < 3) :
    keyParamError w p q = some .invalidKeyParams := if_pos h

theorem keyParamError_range {w p q : Nat} (hguard : ¬ (p = q ∨ totient p q < 3)) (hn : 2 ^ w ≤ p * q) :
    keyParamError w p q = some .range := by
  rw [keyParamError, if_neg hguard, if_pos hn]

/-- Parameters that pass the checks have a natural φ of at least 3. -/
theorem totient_of_checked {w p q : Nat} (h : keyParamError w p q = none) :
    ∃ phi : Nat, totient p q = phi ∧ 3 ≤ phi := by
  obtain ⟨-, hthree, -⟩ := keyParamError_none.1 h
  exact ⟨(totient p q).toNat, by omega, by omega⟩

/-- φ is below the modulus, so e and d fit where n does (R85). -/
theorem totient_lt_modulus {p q phi : Nat} (hphi : totient p q = phi) (hthree : 3 ≤ phi) :
    phi < p * q := by
  have hexpand : totient p q = (p * q : Nat) - p - q + 1 := by rw [totient]; push_cast; ring
  have hp : p ≠ 0 := by rintro rfl; simp only [Nat.zero_mul] at hexpand; omega
  have hq : q ≠ 0 := by rintro rfl; simp only [Nat.mul_zero] at hexpand; omega
  omega

/-! ### The exponents (R87, R88) -/

/-- What rule R88 says of the two exponents of a key with totient φ. -/
structure KeyExponents (phi e d : Nat) : Prop where
  e_range : 2 ≤ e ∧ e ≤ phi - 1
  coprime : Nat.gcd e phi = 1
  d_range : 1 ≤ d ∧ d ≤ phi - 1
  inverse : e * d % phi = 1

/-- d is the only exponent that belongs to e (R88). -/
theorem KeyExponents.unique {phi e d d' : Nat} (h : KeyExponents phi e d) (hlt : d' < phi)
    (hinv : e * d' % phi = 1) : d' = d := by
  have hmod : e * d' ≡ e * d [MOD phi] := hinv.trans h.inverse.symm
  have hcancel : d' ≡ d [MOD phi] :=
    Nat.ModEq.cancel_left_of_coprime ((Nat.gcd_comm phi e).trans h.coprime) hmod
  have hd := h.d_range
  exact hcancel.eq_of_lt_of_lt hlt (by omega)

/-- `modInverse` of an accepted draw is the d that belongs to it: NO_INVERSE cannot arise (R87). -/
theorem modInverse_keyExponents {phi e : Nat} (hthree : 3 ≤ phi) (he : 2 ≤ e ∧ e ≤ phi - 1)
    (hg : Nat.gcd e phi = 1) :
    ∃ d : Nat, modInverse e phi = .ok d ∧ (d : Int) = (xgcd e phi).2.1 % phi ∧ KeyExponents phi e d := by
  obtain ⟨d, hok, hd, hlt, hinv⟩ := modInverse_ok hg (by omega)
  rw [Nat.mod_eq_of_lt (by omega : 1 < phi)] at hinv
  have hpos : d ≠ 0 := by rintro rfl; simp at hinv
  exact ⟨d, hok, hd, he, hg, ⟨by omega, by omega⟩, hinv⟩

/-! ### Compute (R83) -/

theorem keyTriple_of_paramError {w p q : Nat} {err : ErrorCode} (h : keyParamError w p q = some err)
    (draws : List Nat) : keyTriple w p q draws = .error err := by
  simp only [keyTriple, h]

section
variable {w p q phi : Nat} {draws : List Nat} (hc : keyParamError w p q = none)
  (hphi : totient p q = phi)
include hc hphi

theorem keyTriple_of_no_acceptedDraw (ha : acceptedDraw phi draws = none) :
    keyTriple w p q draws = .error .retryExhausted := by
  simp only [keyTriple, hc, hphi, Int.toNat_natCast, ha]

theorem keyTriple_of_acceptedDraw {e d : Nat} (ha : acceptedDraw phi draws = some e)
    (hd : modInverse e phi = .ok d) : keyTriple w p q draws = .ok (p * q, e, d) := by
  simp only [keyTriple, hc, hphi, Int.toNat_natCast, ha, hd]

end

/-- The accepted draw is one of the draws and coprime to φ (R86). -/
theorem acceptedDraw_eq_some {phi e : Nat} {draws : List Nat} (h : acceptedDraw phi draws = some e) :
    e ∈ draws ∧ Nat.gcd e phi = 1 := by
  refine ⟨List.mem_of_find?_eq_some h, ?_⟩
  have hcoprime := List.find?_some h
  rwa [decide_eq_true_eq, stdGcd_eq_gcd] at hcoprime

/-! ### The draws taken are the draws admitted (R86) -/

theorem keygenDraws_of_paramError {p : Params} {pp qq : Nat} {err : ErrorCode}
    (h : keyParamError p.width pp qq = some err) (g : Rng) : keygenDraws p pp qq g = ([], g) := by
  simp only [keygenDraws, h]

theorem admittedDraws_of_paramError {p : Params} {pp qq : Nat} {err : ErrorCode} {draws : List Nat}
    (h : keyParamError p.width pp qq = some err) : admittedDraws p pp qq draws ↔ draws = [] := by
  simp only [admittedDraws, h]

section
variable {p : Params} {pp qq phi : Nat} (hc : keyParamError p.width pp qq = none)
  (hphi : totient pp qq = phi)
include hc hphi

theorem keygenDraws_of_checked (g : Rng) : keygenDraws p pp qq g = sample phi p.maxTries g := by
  simp only [keygenDraws, hc, hphi, Int.toNat_natCast]

/-- Shapes (b) and (c) of rule R86, over the natural φ. -/
theorem admittedDraws_of_checked {draws : List Nat} (hthree : 3 ≤ phi) :
    admittedDraws p pp qq draws ↔
      (∀ r ∈ draws, 2 ≤ r ∧ r ≤ phi - 1) ∧
        ((∃ before e, draws = before ++ [e] ∧ before.length + 1 ≤ p.maxTries ∧
            (∀ r ∈ before, Nat.gcd r phi ≠ 1) ∧ Nat.gcd e phi = 1) ∨
          (draws.length = p.maxTries ∧ ∀ r ∈ draws, Nat.gcd r phi ≠ 1)) := by
  have hrange (r : Nat) : (r : Int) ≤ phi - 1 ↔ r ≤ phi - 1 := by omega
  simp only [admittedDraws, hc, hphi, Int.toNat_natCast, hrange]
  refine and_congr_right' (or_congr_left (exists₂_congr fun before e => and_congr_right fun h => ?_))
  rw [h, List.length_append, List.length_singleton]

end

/-- Whatever the source holds, KEYGEN's draws are a list that rule R86 admits. -/
theorem keygenDraws_admitted (p : Params) (pp qq : Nat) (g : Rng) :
    admittedDraws p pp qq (keygenDraws p pp qq g).1 := by
  cases hc : keyParamError p.width pp qq with
  | some err => rw [admittedDraws_of_paramError hc, keygenDraws_of_paramError hc]
  | none =>
    obtain ⟨phi, hphi, hthree⟩ := totient_of_checked hc
    rw [admittedDraws_of_checked hc hphi hthree, keygenDraws_of_checked hc hphi]
    exact sample_spec hthree p.maxTries g

/-- An admitted list that stands next in the source is what KEYGEN draws. -/
theorem keygenDraws_of_admitted {p : Params} {pp qq : Nat} {draws : List Nat}
    (h : admittedDraws p pp qq draws) (rest : List Nat) (count : Nat) :
    keygenDraws p pp qq { queue := draws ++ rest, count := count } =
      (draws, { queue := rest, count := count }) := by
  cases hc : keyParamError p.width pp qq with
  | some err =>
    rw [keygenDraws_of_paramError hc, (admittedDraws_of_paramError hc).1 h, List.nil_append]
  | none =>
    obtain ⟨phi, hphi, hthree⟩ := totient_of_checked hc
    rw [keygenDraws_of_checked hc hphi]
    obtain ⟨hrange, ⟨before, e, rfl, hlen, hbefore, he⟩ | ⟨hlen, hnone⟩⟩ :=
      (admittedDraws_of_checked hc hphi hthree).1 h
    · rw [List.append_assoc, List.singleton_append]
      exact sample_accepting before rest e _ count
        (fun r hr => and_assoc.1 ⟨hrange r (List.mem_append_left _ hr), hbefore r hr⟩) hlen
        (hrange e (by simp)) he
    · rw [← hlen]
      exact sample_exhausting draws rest count fun r hr => and_assoc.1 ⟨hrange r hr, hnone r hr⟩

/-! ### KEYGEN (R83) -/

theorem exec_keygen (fd0 fd1 fd2 fs0 fs1 : Reg) (s : State) :
    exec (.keygen fd0 fd1 fd2 fs0 fs1) s = .next { s with
      block := s.block.complete (keygenResult fd0 fd1 fd2 s.block.latch
        (keygenDraws s.params (uval s.block.latch.op0) (uval s.block.latch.op1) s.rng).1)
      rng := (keygenDraws s.params (uval s.block.latch.op0) (uval s.block.latch.op1) s.rng).2 } := rfl

theorem keygenResult_of_error {w : Nat} {fd0 fd1 fd2 : Reg} {l : Latch w} {draws : List Nat}
    {err : ErrorCode} (h : keyTriple w (uval l.op0) (uval l.op1) draws = .error err) :
    keygenResult fd0 fd1 fd2 l draws = .error err := by
  simp only [keygenResult, h]

theorem keygenResult_of_ok {w : Nat} {fd0 fd1 fd2 : Reg} {l : Latch w} {draws : List Nat}
    {n e d : Nat} (h : keyTriple w (uval l.op0) (uval l.op1) draws = .ok (n, e, d)) :
    keygenResult fd0 fd1 fd2 l draws = .ok [(fd0, enc w n), (fd1, enc w e), (fd2, enc w d)] := by
  simp only [keygenResult, h]

/-- A KEYGEN whose parameters fail a check ends in that error and takes no draw (R84, R85). -/
theorem exec_keygen_of_paramError {s : State} {err : ErrorCode} (fd0 fd1 fd2 fs0 fs1 : Reg)
    (h : keyParamError s.params.width (uval s.block.latch.op0) (uval s.block.latch.op1) = some err) :
    exec (.keygen fd0 fd1 fd2 fs0 fs1) s = .next { s with block :=
      { s.block with busy := false, done := true, err := true, errcode := err.code } } := by
  rw [exec_keygen, keygenDraws_of_paramError h,
    keygenResult_of_error (keyTriple_of_paramError h _), Block.complete_error]

/-- Everything a KEYGEN whose parameters pass the checks can do: RETRY_EXHAUSTED, or a key (R86 to R88). -/
theorem exec_keygen_of_checked {s : State} {phi : Nat} (fd0 fd1 fd2 fs0 fs1 : Reg)
    (hc : keyParamError s.params.width (uval s.block.latch.op0) (uval s.block.latch.op1) = none)
    (hphi : totient (uval s.block.latch.op0) (uval s.block.latch.op1) = phi) (hthree : 3 ≤ phi) :
    ∃ (r : Except ErrorCode (List (Reg × BitVec s.params.width))) (g : Rng),
      exec (.keygen fd0 fd1 fd2 fs0 fs1) s = .next { s with block := s.block.complete r, rng := g } ∧
        (r = .error .retryExhausted ∨ ∃ e d, KeyExponents phi e d ∧
          r = .ok [(fd0, enc _ (uval s.block.latch.op0 * uval s.block.latch.op1 : Nat)),
            (fd1, enc _ e), (fd2, enc _ d)]) := by
  refine ⟨_, _, exec_keygen fd0 fd1 fd2 fs0 fs1 s, ?_⟩
  have hadmitted := keygenDraws_admitted s.params (uval s.block.latch.op0) (uval s.block.latch.op1) s.rng
  generalize (keygenDraws s.params (uval s.block.latch.op0) (uval s.block.latch.op1) s.rng).1 = draws
    at hadmitted ⊢
  obtain ⟨hrange, -⟩ := (admittedDraws_of_checked hc hphi hthree).1 hadmitted
  cases ha : acceptedDraw phi draws with
  | none => exact .inl (keygenResult_of_error (keyTriple_of_no_acceptedDraw hc hphi ha))
  | some e =>
    obtain ⟨hmem, hg⟩ := acceptedDraw_eq_some ha
    obtain ⟨d, hd, -, hkey⟩ := modInverse_keyExponents hthree (hrange e hmem) hg
    exact .inr ⟨e, d, hkey, keygenResult_of_ok (keyTriple_of_acceptedDraw hc hphi ha hd)⟩

/-- After the checks no error but RETRY_EXHAUSTED is left. -/
theorem exec_keygen_errcode_of_checked {s : State} (fd0 fd1 fd2 fs0 fs1 : Reg)
    (hc : keyParamError s.params.width (uval s.block.latch.op0) (uval s.block.latch.op1) = none) :
    ∃ (b : Block s.params.width) (g : Rng),
      exec (.keygen fd0 fd1 fd2 fs0 fs1) s = .next { s with block := b, rng := g } ∧
        (b.errcode = 0#4 ∨ b.errcode = 6#4) := by
  obtain ⟨phi, hphi, hthree⟩ := totient_of_checked hc
  obtain ⟨r, g, hexec, rfl | ⟨e, d, -, rfl⟩⟩ :=
    exec_keygen_of_checked fd0 fd1 fd2 fs0 fs1 hc hphi hthree
  · exact ⟨_, g, hexec, .inr rfl⟩
  · exact ⟨_, g, hexec, .inl rfl⟩

/-- Settles O30: the draws taken are admitted, and an admitted list next in the source is drawn as it is. -/
theorem keygenDrawsAreExactlyTheAdmittedLists : Obligations.KeygenDrawsAreExactlyTheAdmittedLists := by
  unfold Obligations.KeygenDrawsAreExactlyTheAdmittedLists
  constructor
  · intro s fd0 fd1 fd2 fs0 fs1
    exact ⟨_, _, keygenDraws_admitted _ _ _ s.rng, exec_keygen fd0 fd1 fd2 fs0 fs1 s⟩
  · intro p pp qq draws rest count h
    exact keygenDraws_of_admitted h rest count

/-- Settles O27: past the guard a KEYGEN ends in RANGE, in RETRY_EXHAUSTED or without an error. -/
theorem keygenGuardsItsParameters : Obligations.KeygenGuardsItsParameters := by
  unfold Obligations.KeygenGuardsItsParameters
  rintro s fd0 fd1 fd2 fs0 fs1 _ _ rfl rfl
  refine ⟨fun hguard => exec_keygen_of_paramError fd0 fd1 fd2 fs0 fs1 (keyParamError_guard hguard),
    fun hguard => ?_⟩
  rcases le_or_gt (2 ^ s.params.width) (uval s.block.latch.op0 * uval s.block.latch.op1) with hn | hn
  · exact ⟨_, s.rng, exec_keygen_of_paramError fd0 fd1 fd2 fs0 fs1 (keyParamError_range hguard hn),
      show 5#4 ≠ 2#4 by decide⟩
  · obtain ⟨hne, hthree⟩ := not_or.1 hguard
    obtain ⟨b, g, hexec, hcode⟩ := exec_keygen_errcode_of_checked fd0 fd1 fd2 fs0 fs1
      (keyParamError_none.2 ⟨hne, not_lt.1 hthree, hn⟩)
    exact ⟨b, g, hexec, by rcases hcode with h | h <;> rw [h] <;> decide⟩

/-- Settles O28: n is checked after the guard, and past both checks a KEYGEN ends with code 0 or 6. -/
theorem keygenReportsRangeWhenTheModulusDoesNotFit :
    Obligations.KeygenReportsRangeWhenTheModulusDoesNotFit := by
  unfold Obligations.KeygenReportsRangeWhenTheModulusDoesNotFit
  rintro s fd0 fd1 fd2 fs0 fs1 _ _ rfl rfl hne hthree
  refine ⟨fun hn => exec_keygen_of_paramError fd0 fd1 fd2 fs0 fs1
    (keyParamError_range (not_or.2 ⟨hne, not_lt.2 hthree⟩) hn), fun hn => ?_⟩
  obtain ⟨b, g, hexec, hcode⟩ := exec_keygen_errcode_of_checked fd0 fd1 fd2 fs0 fs1
    (keyParamError_none.2 ⟨hne, hthree, hn⟩)
  exact ⟨b, g, hexec, by rcases hcode with h | h <;> rw [h] <;> decide⟩

/-- Settles O26: the list of shape (b) is the list drawn; its last draw is the accepted one, and `modInverse`
gives the d that belongs to it. -/
theorem keygenWritesTheKeyOfItsDraws : Obligations.KeygenWritesTheKeyOfItsDraws := by
  unfold Obligations.KeygenWritesTheKeyOfItsDraws
  rintro s fd0 fd1 fd2 fs0 fs1 _ _ phi before rest e rfl rfl hne hphi hthree hn hqueue hlen hbefore
    hlow hhigh hg
  have hc := keyParamError_none.2 ⟨hne, hphi.ge.trans' (by exact_mod_cast hthree), hn⟩
  have hsource : s.rng = { queue := before ++ e :: rest, count := s.rng.count } := by rw [← hqueue]
  have hdraws : keygenDraws s.params (uval s.block.latch.op0) (uval s.block.latch.op1) s.rng =
      (before ++ [e], { s.rng with queue := rest }) := by
    rw [keygenDraws_of_checked hc hphi, hsource]
    exact sample_accepting before rest e _ _ hbefore hlen ⟨hlow, hhigh⟩ hg
  have haccepted := acceptedDraw_accepting before e (fun r hr => (hbefore r hr).2.2) hg
  obtain ⟨d, hd, hx, hkey⟩ := modInverse_keyExponents hthree ⟨hlow, hhigh⟩ hg
  refine ⟨d, hx, hkey.d_range.1, hkey.d_range.2, hkey.inverse, ?_⟩
  rw [exec_keygen, hdraws, keygenResult_of_ok (keyTriple_of_acceptedDraw hc hphi haccepted hd),
    Block.complete_ok]
  simp only [enc, BitVec.ofInt_natCast, List.foldl_cons, List.foldl_nil]

/-- A success leaves each of three results in its own register, when the three are distinct. -/
theorem Block.reg_complete_three {w : Nat} (b : Block w) {k0 k1 k2 : Reg}
    (h : distinctDests k0 k1 k2 = true) (x0 x1 x2 : BitVec w) :
    (b.complete (.ok [(k0, x0), (k1, x1), (k2, x2)])).reg k0 = x0 ∧
      (b.complete (.ok [(k0, x0), (k1, x1), (k2, x2)])).reg k1 = x1 ∧
      (b.complete (.ok [(k0, x0), (k1, x1), (k2, x2)])).reg k2 = x2 := by
  obtain ⟨h01, h02, h12⟩ := distinctDests_iff.1 h
  have hreg (k : Reg) : (b.complete (.ok [(k0, x0), (k1, x1), (k2, x2)])).reg k =
      (((b.setReg k0 x0).setReg k1 x1).setReg k2 x2).reg k := rfl
  simp [hreg, Block.reg_setReg, h01.symm, h02.symm, h12.symm]

/-- Settles O31: a KEYGEN without an error has passed the checks and written a key of its φ, and all three
results fit as φ < p·q. -/
theorem keygenSuccessIsAValidKey : Obligations.KeygenSuccessIsAValidKey := by
  unfold Obligations.KeygenSuccessIsAValidKey
  rintro s fd0 fd1 fd2 fs0 fs1 _ _ b g hwf rfl rfl hexec herr
  cases hc : keyParamError s.params.width (uval s.block.latch.op0) (uval s.block.latch.op1) with
  | some err =>
    rw [exec_keygen_of_paramError fd0 fd1 fd2 fs0 fs1 hc] at hexec
    cases hexec
    cases herr
  | none =>
    obtain ⟨-, -, hn⟩ := keyParamError_none.1 hc
    obtain ⟨phi, hphi, hthree⟩ := totient_of_checked hc
    obtain ⟨r, g', hr, hcases⟩ := exec_keygen_of_checked fd0 fd1 fd2 fs0 fs1 hc hphi hthree
    cases hr.symm.trans hexec
    obtain rfl | ⟨e, d, hkey, rfl⟩ := hcases
    · cases herr
    have hlt := totient_lt_modulus hphi hthree
    have ⟨he, hg, hd, hinv⟩ := hkey
    obtain ⟨h0, h1, h2⟩ := s.block.reg_complete_three hwf
      (enc _ (uval s.block.latch.op0 * uval s.block.latch.op1 : Nat)) (enc _ e) (enc _ d)
    rw [h0, h1, h2, uval_enc hn, uval_enc (by omega : e < _), uval_enc (by omega : d < _)]
    exact ⟨rfl, phi, hphi, hthree, he.1, he.2, hg, hd.1, hd.2, hinv, fun d' => hkey.unique⟩

end Sys2Proof.Machine

/-! ## The cipher (43_cipher.md) -/

namespace Sys2Proof.Machine

/-! ### EXPMOD (R89) -/

theorem exec_expmod (fd0 fs0 fs1 fs2 : Reg) (s : State) :
    exec (.expmod fd0 fs0 fs1 fs2) s = .next (s.complete (expmodResult fd0 s.block.latch)) := rfl

theorem expmodResult_zeroModulus {w : Nat} {l : Latch w} (fd0 : Reg) (hn : uval l.op2 = 0) :
    expmodResult fd0 l = .error .zeroModulus := if_pos hn

theorem expmodResult_power {w : Nat} {l : Latch w} (fd0 : Reg) (hn : uval l.op2 ≠ 0) :
    expmodResult fd0 l = .ok [(fd0, BitVec.ofNat w (uval l.op0 ^ uval l.op1 % uval l.op2))] := by
  rw [expmodResult, if_neg hn, expmod_eq_pow_mod _ _ (Nat.pos_of_ne_zero hn), enc, BitVec.ofInt_natCast]

/-- A remainder by a register's value fits in a register. -/
theorem mod_uval_lt {w : Nat} (a : Nat) {v : BitVec w} (hv : uval v ≠ 0) : a % uval v < 2 ^ w :=
  (Nat.mod_lt a (Nat.pos_of_ne_zero hv)).trans (uval_lt v)

/-- Settles O32: the modulus alone decides between the error and the power. -/
theorem expmodWritesThePowerOrReportsZeroModulus :
    Obligations.ExpmodWritesThePowerOrReportsZeroModulus := by
  unfold Obligations.ExpmodWritesThePowerOrReportsZeroModulus
  rintro s fd0 fs0 fs1 fs2 _ _ _ rfl rfl rfl
  refine ⟨fun hn => ?zeroModulus, fun hn => ⟨mod_uval_lt _ hn, ?power⟩⟩
  case zeroModulus =>
    rw [exec_expmod, expmodResult_zeroModulus fd0 hn, State.complete, Block.complete_error]
    rfl
  case power =>
    rw [exec_expmod, expmodResult_power fd0 hn, State.complete, Block.complete_ok]
    rfl

/-- What EXPMOD with a modulus leaves in its destination, as a number. -/
theorem exec_expmod_reg {s : State} (fd0 fs0 fs1 fs2 : Reg) (hn : uval s.block.latch.op2 ≠ 0) :
    ∃ b : Block s.params.width,
      exec (.expmod fd0 fs0 fs1 fs2) s = .next { s with block := b } ∧ b.err = false ∧
        uval (b.reg fd0) =
          uval s.block.latch.op0 ^ uval s.block.latch.op1 % uval s.block.latch.op2 := by
  refine ⟨s.block.complete (expmodResult fd0 s.block.latch), exec_expmod fd0 fs0 fs1 fs2 s, ?_⟩
  rw [expmodResult_power fd0 hn]
  refine ⟨rfl, ?_⟩
  have hreg (v : BitVec s.params.width) :
      (s.block.complete (.ok [(fd0, v)])).reg fd0 = (s.block.setReg fd0 v).reg fd0 := rfl
  rw [hreg, Block.reg_setReg_self, uval, BitVec.toNat_ofNat, Nat.mod_eq_of_lt (mod_uval_lt _ hn)]

/-! ### The round trip (R91) -/

theorem totient_eq_natCast {p q : Nat} (hp : 1 ≤ p) (hq : 1 ≤ q) :
    totient p q = ((p - 1) * (q - 1) : Nat) := by
  rw [totient, Nat.cast_mul, Nat.cast_sub hp, Nat.cast_sub hq, Nat.cast_one]

/-- Fermat's little theorem for every m, multiples of p included. -/
theorem pow_modEq_self {p k : Nat} (hp : p.Prime) (hk : 1 ≤ k) (hdvd : p - 1 ∣ k - 1) (m : Nat) :
    m ^ k ≡ m [MOD p] := by
  have hint := Int.ModEq.pow_eq_pow hp hdvd hk one_pos m
  rw [pow_one] at hint
  exact_mod_cast hint

/-- Raising to a power that is 1 modulo φ is the identity modulo p and modulo q, so modulo p·q. -/
theorem pow_modEq_self_of_mod_totient {p q phi k : Nat} (hp : p.Prime) (hq : q.Prime) (hne : p ≠ q)
    (hphi : totient p q = phi) (hk : k % phi = 1) (m : Nat) : m ^ k ≡ m [MOD p * q] := by
  have hprod : phi = (p - 1) * (q - 1) := by
    exact_mod_cast hphi.symm.trans (totient_eq_natCast hp.one_le hq.one_le)
  have hpos : 1 ≤ k := hk ▸ Nat.mod_le k phi
  have hdvd : phi ∣ k - 1 := hk ▸ Nat.dvd_sub_mod k
  rw [hprod] at hdvd
  exact (Nat.modEq_and_modEq_iff_modEq_mul ((Nat.coprime_primes hp hq).2 hne)).1
    ⟨pow_modEq_self hp hpos ((Nat.dvd_mul_right _ _).trans hdvd) m,
      pow_modEq_self hq hpos ((Nat.dvd_mul_left _ _).trans hdvd) m⟩

/-- Settles O33: the two powers are one power by e·d, which is 1 modulo φ in a valid key. -/
theorem rsaMessagesRoundTrip : Obligations.RsaMessagesRoundTrip := by
  unfold Obligations.RsaMessagesRoundTrip
  intro s fd0 fd1 fd2 fs0 fs1 b g hwf hp hq hne hexec herr s1 c i1 i2 i3 he hn
  obtain ⟨hmodulus, phi, hphi, -, -, -, -, -, -, hinv, -⟩ :=
    keygenSuccessIsAValidKey s fd0 fd1 fd2 fs0 fs1 _ _ b g hwf rfl rfl hexec herr
  have hpos : uval (b.reg fd0) ≠ 0 := hmodulus ▸ Nat.mul_ne_zero hp.ne_zero hq.ne_zero
  obtain ⟨b1, hexec1, herr1, hcipher⟩ := exec_expmod_reg c i1 i2 i3 (hn ▸ hpos)
  refine ⟨b1, hexec1, herr1, fun s2 m j1 j2 j3 hc2 hd2 hn2 => ?_⟩
  obtain ⟨b2, hexec2, herr2, hplain⟩ := exec_expmod_reg m j1 j2 j3 (hn2 ▸ hpos)
  have hround : uval (b2.reg m) = uval s1.block.latch.op0 % uval (b.reg fd0) := by
    rw [hplain, hc2, hd2, hn2, hcipher, he, hn, ← Nat.pow_mod, ← pow_mul, hmodulus]
    exact pow_modEq_self_of_mod_totient hp hq hne hphi hinv _
  exact ⟨b2, hexec2, herr2, fun hlt => hround.trans (Nat.mod_eq_of_lt hlt), hround⟩

end Sys2Proof.Machine

/-! ## How commands end in an error, and races (60_exceptions.md) -/

namespace Sys2Proof.Machine

/-! ### RETRY_EXHAUSTED (R86, R98) -/

/-- Settles O29: the list of shape (c) is the list drawn, and no draw of it is accepted. -/
theorem keygenReportsRetryExhausted : Obligations.KeygenReportsRetryExhausted := by
  unfold Obligations.KeygenReportsRetryExhausted
  rintro s fd0 fd1 fd2 fs0 fs1 _ _ phi draws rest rfl rfl hne hphi hthree hn hqueue hlen hdraws
  have hc := keyParamError_none.2 ⟨hne, hphi.ge.trans' (by exact_mod_cast hthree), hn⟩
  have hsource : s.rng = { queue := draws ++ rest, count := s.rng.count } := by rw [← hqueue]
  have hdrawn : keygenDraws s.params (uval s.block.latch.op0) (uval s.block.latch.op1) s.rng =
      (draws, { s.rng with queue := rest }) := by
    rw [keygenDraws_of_checked hc hphi, hsource, ← hlen]
    exact sample_exhausting draws rest _ hdraws
  have hnone := acceptedDraw_exhausting draws fun r hr => (hdraws r hr).2.2
  rw [exec_keygen, hdrawn, keygenResult_of_error (keyTriple_of_no_acceptedDraw hc hphi hnone),
    Block.complete_error]
  rfl

/-! ### The error codes of each command (R92, R102) -/

theorem keyParamError_some {w p q : Nat} {e : ErrorCode} (h : keyParamError w p q = some e) :
    e = .invalidKeyParams ∨ e = .range := by
  unfold keyParamError at h
  split_ifs at h
  · exact .inl (Option.some.inj h).symm
  · exact .inr (Option.some.inj h).symm

theorem modInverse_error {a m : Nat} {e : ErrorCode} (h : modInverse a m = .error e) :
    e = .noInverse ∨ e = .zeroModulus := by
  rw [modInverse_eq] at h
  split_ifs at h
  · exact .inl (Except.error.inj h).symm
  · exact .inr (Except.error.inj h).symm

/-- The codes a command can end with; 0 is the end without an error (R92). -/
def endCodes : Instr → List (BitVec 4)
  | .gcd _ _ _ => [0#4]
  | .xgcd _ _ _ _ _ _ => [0#4]
  | .modinv _ _ _ => [0#4, 1#4, 4#4]
  | .keygen _ _ _ _ _ => [0#4, 2#4, 5#4, 6#4]
  | .expmod _ _ _ _ => [0#4, 4#4]

/-- XGCD never ends in RANGE, as its coefficients fit (R80), and KEYGEN never in NO_INVERSE, as the accepted
draw is coprime to φ (R87). -/
theorem exec_errcode_mem (i : Instr) (s : State) :
    ∃ (b : Block s.params.width) (g : Rng),
      exec i s = .next { s with block := b, rng := g } ∧ b.errcode ∈ endCodes i := by
  cases i with
  | gcd fd0 fs0 fs1 =>
    exact ⟨_, s.rng, exec_gcd fd0 fs0 fs1 s, by rw [gcdResult_eq, Block.complete_ok]; simp [endCodes]⟩
  | xgcd hint fd0 fd1 fd2 fs0 fs1 =>
    refine ⟨_, s.rng, exec_xgcd hint fd0 fd1 fd2 fs0 fs1 s, ?_⟩
    rw [xgcdResult_eq s.two_le_width fd0 fd1 fd2 s.block.latch rfl, Block.complete_ok]
    simp [endCodes]
  | modinv fd0 fs0 fs1 =>
    cases h : modInverse (uval s.block.latch.op0) (uval s.block.latch.op1) with
    | ok r => exact ⟨_, s.rng, exec_modinv_of_ok fd0 fs0 fs1 h, by simp [endCodes]⟩
    | error e =>
      refine ⟨_, s.rng, exec_modinv_of_error fd0 fs0 fs1 h, ?_⟩
      obtain rfl | rfl := modInverse_error h <;> simp [endCodes, ErrorCode.code]
  | keygen fd0 fd1 fd2 fs0 fs1 =>
    cases hc : keyParamError s.params.width (uval s.block.latch.op0) (uval s.block.latch.op1) with
    | some e =>
      refine ⟨_, s.rng, exec_keygen_of_paramError fd0 fd1 fd2 fs0 fs1 hc, ?_⟩
      obtain rfl | rfl := keyParamError_some hc <;> simp [endCodes, ErrorCode.code]
    | none =>
      obtain ⟨b, g, hexec, hcode⟩ := exec_keygen_errcode_of_checked fd0 fd1 fd2 fs0 fs1 hc
      refine ⟨b, g, hexec, ?_⟩
      obtain hcode | hcode := hcode <;> simp [endCodes, hcode]
  | expmod fd0 fs0 fs1 fs2 =>
    refine ⟨_, s.rng, exec_expmod fd0 fs0 fs1 fs2 s, ?_⟩
    by_cases hn : uval s.block.latch.op2 = 0
    · rw [expmodResult_zeroModulus fd0 hn, Block.complete_error]
      simp [endCodes, ErrorCode.code]
    · rw [expmodResult_power fd0 hn, Block.complete_ok]
      simp [endCodes]

/-- ERR and ERRCODE agree after every command (R24, R25). -/
theorem Block.errOk_of_exec {i : Instr} {s : State} {b : Block s.params.width} {g : Rng}
    (h : exec i s = .next { s with block := b, rng := g }) : b.errOk := by
  obtain ⟨r, g', hexec, -, -⟩ := exec_cases i s
  cases hexec.symm.trans h
  exact s.block.errOk_complete r

/-- Settles O35: a completion keeps ERR and ERRCODE in step, and each command has its own codes. -/
theorem commandsReportOnlyTheirErrorCodes : Obligations.CommandsReportOnlyTheirErrorCodes := by
  unfold Obligations.CommandsReportOnlyTheirErrorCodes
  intro i s b g h
  obtain ⟨hzero, -⟩ := Block.errOk_of_exec h
  obtain ⟨b', g', hexec, hcode⟩ := exec_errcode_mem i s
  cases hexec.symm.trans h
  refine ⟨by rw [← Bool.not_eq_false, ne_eq, hzero], ?_⟩
  cases i <;> simpa [endCodes] using hcode

/-! ### Hosts are alike (R110) -/

/-- Whether an operation stops, and what it makes of the block, is settled before who performs it. -/
theorem performOp_block (s : State) (op : HostOp) :
    (∀ n h, performOp s n h op = .fault .outsideWindow) ∨
      ∃ b : Block s.params.width, ∀ n h, ∃ hs,
        performOp s n h op = .next { s with block := b, hosts := hs } := by
  cases op with
  | read addr size =>
    cases hw : inWindow s.params addr with
    | false => exact .inl fun n h => performOp_outside (.inl rfl) hw
    | true =>
      refine .inr ⟨s.block, fun n h => ?_⟩
      cases hb : badAccess (addr - s.params.base) size with
      | true => exact ⟨_, performOp_bad (.inl rfl) hw hb⟩
      | false =>
        obtain ⟨rfl, ha⟩ := (goodAccess_iff _ _).1 hb
        exact ⟨_, performOp_read hw (s.block.hostRead_aligned s.params ha)⟩
  | write addr size v =>
    cases hw : inWindow s.params addr with
    | false => exact .inl fun n h => performOp_outside (.inr ⟨v, rfl⟩) hw
    | true =>
      cases hb : badAccess (addr - s.params.base) size with
      | true => exact .inr ⟨s.block, fun n h => ⟨_, performOp_bad (.inr ⟨v, rfl⟩) hw hb⟩⟩
      | false =>
        obtain ⟨rfl, ha⟩ := (goodAccess_iff _ _).1 hb
        refine .inr ⟨s.block.writeSlot (slotAt s.params.words (addr - s.params.base)) v, fun n h => ?_⟩
        exact ⟨_, performOp_write hw (s.block.hostWrite_aligned s.params v ha)⟩
  | wait =>
    refine .inr ⟨s.block, fun n h => ?_⟩
    by_cases hb : s.block.statusWord.getLsbD 0 = true
    · exact ⟨s.hosts, if_pos hb⟩
    · exact ⟨_, if_neg hb⟩
  | waitIrq =>
    refine .inr ⟨s.block, fun n h => ?_⟩
    by_cases hb : s.block.irq = true
    · exact ⟨_, if_pos hb⟩
    · exact ⟨s.hosts, if_neg hb⟩

theorem hostMove_of_next {s : State} {n : Nat} {h : HostState} {op : HostOp} {ops : List HostOp}
    (hh : s.hosts[n]? = some h) (hf : h.faulted = false) (ho : h.ops = op :: ops) :
    hostMove n s = performOp s n h op := by
  simp [hostMove, hh, hf, ho]

/-- Settles O53: both hosts' moves are the one operation, whose block does not depend on the host. -/
theorem hostsAreIndistinguishable : Obligations.HostsAreIndistinguishable := by
  unfold Obligations.HostsAreIndistinguishable
  intro s n m hn hm op opsn opsm b hs hhn hfn hon hhm hfm hom hmove
  rw [hostMove_of_next hhn hfn hon] at hmove
  rw [hostMove_of_next hhm hfm hom]
  obtain hstop | ⟨b', hblock⟩ := performOp_block s op
  · rw [hstop n hn] at hmove
    cases hmove
  · obtain ⟨hsn, hn'⟩ := hblock n hn
    cases hn'.symm.trans hmove
    exact hblock m hm

/-! ### A write racing a completion (R103) -/

/-- An access the block answers is one step of its host. -/
theorem HostTurn.step_write {s : State} {n : Nat} {h : HostState} {ops : List HostOp} {off : Nat}
    {v : Word} {c : Block s.params.width}
    (ht : HostTurn s n h (.write (s.params.base + off) 4 v) ops) (hoff : off < 4096)
    (hw : s.block.hostWrite s.params off 4 v = some c) :
    step s = .next { s with
      block := c
      hosts := s.hosts.set n { h with ops := ops }
      schedule := s.schedule.tail } := by
  have hin : inWindow s.params (s.params.base + off) = true := (inWindow_iff _ _).2 ⟨by omega, by omega⟩
  rw [ht.step_eq, performOp_write (s := s.popTurn) (b := c) hin (by rwa [Nat.add_sub_cancel_left]),
    HostState.opDone, ht.next]
  rfl

/-- An idle engine's turn passes (R115, log entry 4). -/
theorem step_engine_of_idle {s : State} (ht : s.nextTurn = some .engine) (hb : s.block.busy = false) :
    step s = .next s.popTurn := by
  rw [step_of_turn ht, takeTurn, engineMove, if_neg (by simp [hb])]

/-- What a command computes, and the draws it takes, depend on the latch, the parameters and the random
source alone (R33, R49). -/
theorem exec_of_latch (i : Instr) (s : State) :
    ∃ (r : Except ErrorCode (List (Reg × BitVec s.params.width))) (g : Rng),
      ∀ (b : Block s.params.width) (hs : List HostState) (sch : List Turn), b.latch = s.block.latch →
        exec i { s with block := b, hosts := hs, schedule := sch } =
          .next { s with block := b.complete r, rng := g, hosts := hs, schedule := sch } := by
  cases i with
  | gcd fd0 fs0 fs1 =>
    exact ⟨gcdResult fd0 s.block.latch, s.rng, fun b hs sch hl => by rw [← hl]; rfl⟩
  | xgcd hint fd0 fd1 fd2 fs0 fs1 =>
    exact ⟨xgcdResult fd0 fd1 fd2 s.block.latch, s.rng, fun b hs sch hl => by rw [← hl]; rfl⟩
  | modinv fd0 fs0 fs1 =>
    exact ⟨modinvResult fd0 s.block.latch, s.rng, fun b hs sch hl => by rw [← hl]; rfl⟩
  | keygen fd0 fd1 fd2 fs0 fs1 =>
    exact ⟨keygenResult fd0 fd1 fd2 s.block.latch
        (keygenDraws s.params (uval s.block.latch.op0) (uval s.block.latch.op1) s.rng).1,
      (keygenDraws s.params (uval s.block.latch.op0) (uval s.block.latch.op1) s.rng).2,
      fun b hs sch hl => by rw [← hl]; rfl⟩
  | expmod fd0 fs0 fs1 fs2 =>
    exact ⟨expmodResult fd0 s.block.latch, s.rng, fun b hs sch hl => by rw [← hl]; rfl⟩

/-- A good busy state's COMPLETE gives the same result from every busy block with the same latch. -/
theorem step_complete_of_latch {s : State} (hgood : s.block.busyOk) (hb : s.block.busy = true) :
    ∃ (r : Except ErrorCode (List (Reg × BitVec s.params.width))) (g : Rng),
      ∀ (b : Block s.params.width) (hs : List HostState) (sch : List Turn),
        b.busy = true → b.latch = s.block.latch →
          step { s with block := b, hosts := hs, schedule := .engine :: sch } =
            .next { s with block := b.complete r, rng := g, hosts := hs, schedule := sch } := by
  obtain ⟨-, -, -, -, i, hd, hwf, -⟩ := hgood hb
  obtain ⟨r, g, hexec⟩ := exec_of_latch i s
  refine ⟨r, g, fun b hs sch hbusy hl => ?_⟩
  rw [step_engine rfl hbusy (by rw [← hd, ← hl]) hwf]
  exact hexec b hs sch hl

/-- Host n is about to write `v` at the offset `off` while the command of a good state runs. -/
structure WriteRace (s : State) (n : Nat) (h : HostState) (off : Nat) (v : Word)
    (ops : List HostOp) : Prop where
  good : s.Inv
  busy : s.block.busy = true
  host : s.hosts[n]? = some h
  unfaulted : h.faulted = false
  next : h.ops = .write (s.params.base + off) 4 v :: ops
  inside : off < 4096

/-- `s` after host n's write and the engine's COMPLETE, which have left the block `b` and the source
`g`. -/
abbrev State.afterRace (s : State) (n : Nat) (h : HostState) (ops : List HostOp) (sch : List Turn)
    (b : Block s.params.width) (g : Rng) : State :=
  { s with block := b, rng := g, hosts := s.hosts.set n { h with ops := ops }, schedule := sch }

section
variable {s : State} {n : Nat} {h : HostState} {off : Nat} {v : Word} {ops : List HostOp}
  (race : WriteRace s n h off v ops)
include race

/-- The host's write, whatever the block and the source are by then. -/
theorem WriteRace.step_write {b c : Block s.params.width} (g : Rng) (sch : List Turn)
    (hw : b.hostWrite s.params off 4 v = some c) :
    step { s with block := b, rng := g, schedule := .host n :: sch } =
      .next (s.afterRace n h ops sch c g) :=
  HostTurn.step_write (s := { s with block := b, rng := g, schedule := .host n :: sch })
    ⟨rfl, race.host, race.unfaulted, race.next⟩ race.inside hw

/-- Both orders of a write and a COMPLETE (R103): a write that leaves the command running is made to the
block before its completion, and a write after it to the completed block; the result `r` is the same. -/
theorem WriteRace.orders (sch : List Turn) :
    ∃ (r : Except ErrorCode (List (Reg × BitVec s.params.width))) (g : Rng),
      step { s with schedule := .engine :: sch } =
        .next { s with block := s.block.complete r, rng := g, schedule := sch } ∧
      (∀ c, s.block.hostWrite s.params off 4 v = some c → c.busy = true →
        c.latch = s.block.latch →
          ∃ t, step { s with schedule := .host n :: .engine :: sch } = .next t ∧
            step t = .next (s.afterRace n h ops sch (c.complete r) g)) ∧
      ∀ c, (s.block.complete r).hostWrite s.params off 4 v = some c →
        ∃ t, step { s with schedule := .engine :: .host n :: sch } = .next t ∧
          step t = .next (s.afterRace n h ops sch c g) := by
  obtain ⟨hbusyOk, -⟩ := race.good
  obtain ⟨r, g, hcomplete⟩ := step_complete_of_latch hbusyOk race.busy
  refine ⟨r, g, hcomplete s.block s.hosts sch race.busy rfl, ?hostFirst, ?engineFirst⟩
  case hostFirst =>
    exact fun c hw hb hl => ⟨_, race.step_write s.rng (.engine :: sch) hw, hcomplete c _ sch hb hl⟩
  case engineFirst =>
    exact fun c hw => ⟨_, hcomplete s.block s.hosts (.host n :: sch) race.busy rfl,
      race.step_write g sch hw⟩

end

/-- Settles O44: after a soft reset the engine is idle, and a soft reset of any block is the reset block. -/
theorem softResetRacesCompleteEitherWay : Obligations.SoftResetRacesCompleteEitherWay := by
  unfold Obligations.SoftResetRacesCompleteEitherWay
  intro s n h ops sch v hgood hb hh hf ho hv
  have race : WriteRace s n h 0x018 v ops := ⟨hgood, hb, hh, hf, ho, by decide⟩
  have hreset (b : Block s.params.width) :
      b.hostWrite s.params 0x018 4 v = some (Block.reset s.params.width) := by
    rw [b.hostWrite_ctrl, b.ctrlWrite_reset hv]
  constructor
  · exact ⟨_, s.rng, race.step_write s.rng (.engine :: sch) (hreset s.block), step_engine_of_idle rfl rfl⟩
  · obtain ⟨r, g, -, -, hengineFirst⟩ := race.orders sch
    obtain ⟨t, h1, h2⟩ := hengineFirst _ (hreset _)
    exact ⟨t, g, h1, h2⟩

@[simp] theorem Block.accept_coll {w : Nat} (b : Block w) (v : Word) : (b.accept v).coll = b.coll := by
  obtain ⟨-, h⟩ | ⟨-, i, -, -, h⟩ := b.accept_cases v <;> rw [h]
  · exact b.acceptIllegal_coll v
  · exact b.acceptLegal_coll v i

@[simp] theorem Block.accept_cmdLast {w : Nat} (b : Block w) (v : Word) : (b.accept v).cmdLast = v := by
  obtain ⟨-, h⟩ | ⟨-, i, -, -, h⟩ := b.accept_cases v <;> rw [h]
  · exact b.acceptIllegal_cmdLast v
  · exact b.acceptLegal_cmdLast v i

@[simp] theorem Block.accept_busy {w : Nat} (b : Block w) (v : Word) : (b.accept v).busy = legal v := by
  obtain ⟨hl, h⟩ | ⟨hl, i, -, -, h⟩ := b.accept_cases v <;> rw [h, hl]
  · exact b.acceptIllegal_busy v
  · exact b.acceptLegal_busy v i

/-- Settles O45: before the COMPLETE the write collides, after it the completed block accepts. -/
theorem cmdWriteRacesComplete : Obligations.CmdWriteRacesComplete := by
  unfold Obligations.CmdWriteRacesComplete
  intro s n h ops sch v hgood hb hh hf ho
  have race : WriteRace s n h 0x010 v ops := ⟨hgood, hb, hh, hf, ho, by decide⟩
  obtain ⟨r, g, -, hhostFirst, hengineFirst⟩ := race.orders sch
  constructor
  · obtain ⟨t, h1, h2⟩ := hhostFirst _ (s.block.hostWrite_cmd_busy _ v hb) hb rfl
    exact ⟨t, _, g, h1, h2, Block.complete_coll _ r, Block.complete_cmdLast _ r,
      Block.complete_busy _ r, Block.complete_done _ r⟩
  · obtain ⟨t, h1, h2⟩ := hengineFirst _ (Block.hostWrite_cmd_idle _ _ v (Block.complete_busy _ r))
    exact ⟨t, _, g, h1, h2, by rw [Block.accept_coll, Block.complete_coll],
      Block.accept_cmdLast _ v, Block.accept_busy _ v⟩

/-- A completion neither reads nor writes COLL (R49). -/
theorem Block.complete_with_coll {w : Nat} (b : Block w) (x : Bool)
    (r : Except ErrorCode (List (Reg × BitVec w))) :
    Block.complete { b with coll := x } r = { b.complete r with coll := x } := by
  cases r with
  | ok rs => rw [Block.complete_ok, Block.complete_ok]
  | error e => rfl

/-- Settles O46: before the COMPLETE the write sets COLL alone, after it the word is put into the completed
register. -/
theorem dataWriteRacesComplete : Obligations.DataWriteRacesComplete := by
  unfold Obligations.DataWriteRacesComplete
  intro s n h ops sch k j v hgood hb hh hf hj ho
  have hwords := s.params.words_ok.2
  have race : WriteRace s n h (0x100 + 0x100 * k.val + 4 * j) v ops :=
    ⟨hgood, hb, hh, hf, ho, by omega⟩
  obtain ⟨r, g, halone, hhostFirst, hengineFirst⟩ := race.orders sch
  refine ⟨s.block.complete r, g, halone, ?hostFirst, ?engineFirst⟩
  case hostFirst =>
    rw [← s.block.complete_with_coll true r]
    exact hhostFirst _ (s.block.hostWrite_data_busy _ k v hb hj) hb rfl
  case engineFirst =>
    obtain ⟨t, h1, h2⟩ := hengineFirst _
      (Block.hostWrite_data_idle _ _ k v (Block.complete_busy _ r) hj)
    exact ⟨t, _, h1, fun m hm => getLsbD_putWord _ _ _ hm, h2⟩

/-- While a command runs a STATUS write can clear COLL alone: DONE, ERR and ERRCODE are 0 (R51). -/
theorem Block.statusWrite_of_busy {w : Nat} {b : Block w} (hgood : b.busyOk) (hb : b.busy = true)
    (v : Word) :
    b.statusWrite v = { b with coll := if v.getLsbD 8 then false else b.coll } := by
  obtain ⟨hdone, herr, hcode, -⟩ := hgood hb
  simp only [b.statusWrite_eq_ite, hdone, herr, hcode, ite_self]

/-- Settles O47: before the COMPLETE only COLL can be cleared, after it DONE is, and irq with it. -/
theorem doneClearRacesComplete : Obligations.DoneClearRacesComplete := by
  unfold Obligations.DoneClearRacesComplete
  intro s n h ops sch v hgood hb hh hf ho hv
  have race : WriteRace s n h 0x014 v ops := ⟨hgood, hb, hh, hf, ho, by decide⟩
  obtain ⟨hbusyOk, -⟩ := hgood
  obtain ⟨r, g, halone, hhostFirst, hengineFirst⟩ := race.orders sch
  refine ⟨s.block.complete r, g, halone, Block.complete_done _ r, ?hostFirst, ?engineFirst⟩
  case hostFirst =>
    rw [Block.complete_coll, ← Block.complete_with_coll, ← Block.statusWrite_of_busy hbusyOk hb]
    exact hhostFirst _ (s.block.hostWrite_status _ v) hb rfl
  case engineFirst =>
    obtain ⟨t, h1, h2⟩ := hengineFirst _ (Block.hostWrite_status _ _ v)
    have hdone : ((s.block.complete r).statusWrite v).done = false := by simp [hv]
    exact ⟨t, _, h1, h2, hdone, Block.irq_of_not_done hdone, rfl⟩

end Sys2Proof.Machine

/-! ## Reset, and the end of a run (70_reset_and_hazards.md) -/

namespace Sys2Proof.Machine

/-! ### The reset values (R113, R114) -/

/-- After a reset no error is reported, and none is recorded (R24, R25, R114). -/
theorem Block.errOk_reset (w : Nat) : (Block.reset w).errOk := ⟨iff_of_true rfl rfl, Nat.zero_le 6⟩

/-- The reset block is idle, so of the invariant only the agreement of ERR and ERRCODE is left to show. -/
theorem State.inv_resetWith (p : Params) : (State.resetWith p).Inv :=
  ⟨Block.busyOk_of_idle rfl, Block.errOk_reset p.width⟩

/-- Settles O40: `State.reset` is the reset state at the parameters of log entry 1. -/
theorem resetMeetsTheInvariant : Obligations.ResetMeetsTheInvariant := by
  unfold Obligations.ResetMeetsTheInvariant
  exact ⟨State.inv_resetWith, State.inv_resetWith Config.params⟩

/-- Settles O43: both resets put in place the block of the reset state, whatever the block was. -/
theorem resetLeavesTheResetValues : Obligations.ResetLeavesTheResetValues := by
  unfold Obligations.ResetLeavesTheResetValues
  refine ⟨?values, fun p => rfl, ?hardReset, ?softReset⟩
  case values =>
    exact fun w => ⟨Block.reg_reset w, rfl, rfl, rfl, rfl, rfl, rfl, rfl, rfl⟩
  case hardReset =>
    intro s hs
    rw [step_of_turn (nextTurn_of_head? hs), takeTurn, State.hardReset, Block.doReset]
  case softReset =>
    intro p b v hv
    rw [b.hostWrite_ctrl, b.ctrlWrite_reset hv]

/-! ### The end of a host's run (R115, R131) -/

/-- A host's record changes only in a turn of its own, by an operation it still had to perform. -/
theorem hostTurn_of_record_changed {s t : State} {n : Nat} (hs : step s = .next t)
    (hne : t.hosts[n]? ≠ s.hosts[n]?) : ∃ h op ops, HostTurn s n h op ops := by
  obtain ⟨m, h, op, ops, ht⟩ | ⟨-, hkeep⟩ := step_turn_cases s
  · suffices m = n from this ▸ ⟨h, op, ops, ht⟩
    by_contra hmn
    rw [ht.step_eq] at hs
    obtain hkeep | ⟨h', hset, -⟩ := performOp_hosts hs
    · exact hne (by rw [hkeep])
    · exact hne (by rw [hset, List.getElem?_set_ne hmn])
  · exact absurd (by rw [hkeep t hs]) hne

/-- With no turn scheduled, the block idle and no host able to move, it is nobody's turn (log entry 3). -/
theorem nextTurn_nobody {s : State} (hs : s.schedule = []) (hb : s.block.busy = false)
    (hstill : ∀ h ∈ s.hosts, h.ops = [] ∨ h.faulted = true) : s.nextTurn = none := by
  have hnone : s.hosts.findIdx? HostState.runnable = none := by
    refine List.findIdx?_eq_none_iff.2 fun h hmem => ?_
    obtain ho | hf := hstill h hmem
    · simp [HostState.runnable, ho]
    · simp [HostState.runnable, hf]
  simp [State.nextTurn, hs, hb, hnone]

/-- Settles O59: a host with no operation left has no turn that could change its record. -/
theorem endedRunsStayAsTheyAre : Obligations.EndedRunsStayAsTheyAre := by
  unfold Obligations.EndedRunsStayAsTheyAre
  rintro s n ⟨hb, h, hh, ho, -⟩
  refine ⟨by rw [Block.getLsbD_statusWord_zero, hb], rfl, ?record, ?still⟩
  case record =>
    intro t hs
    by_contra hne
    obtain ⟨h', op, ops, ht⟩ := hostTurn_of_record_changed hs hne
    obtain rfl : h = h' := Option.some.inj (hh.symm.trans ht.host)
    exact List.cons_ne_nil op ops (ht.next.symm.trans ho)
  case still =>
    intro hsch hstill
    rw [step, nextTurn_nobody hsch hb hstill]

end Sys2Proof.Machine

/-! ## What the registers of XGCD and MODINV hold (40_gcd_kernel.md R80, 41_modular_inverse.md R82) -/

namespace Sys2Proof.Machine

/-! ### The Bézout triple, read back from its registers (R80) -/

/-- What a legal XGCD leaves in its three registers, as numbers: the triple of `xgcd`. -/
theorem exec_xgcd_reg {s : State} {g : Nat} {x y : Int} {h : Bool} {fd0 fd1 fd2 fs0 fs1 : Reg}
    (hwf : (Instr.xgcd h fd0 fd1 fd2 fs0 fs1).wellFormed = true)
    (htriple : xgcd (uval s.block.latch.op0) (uval s.block.latch.op1) = (g, x, y)) :
    ∃ b : Block s.params.width,
      exec (.xgcd h fd0 fd1 fd2 fs0 fs1) s = .next { s with block := b } ∧ b.err = false ∧
        uval (b.reg fd0) = g ∧ sval (b.reg fd1) = x ∧ sval (b.reg fd2) = y := by
  have hw := s.two_le_width
  have ha := uval_lt s.block.latch.op0
  have hb := uval_lt s.block.latch.op1
  have hgcd := xgcd_gcd (uval s.block.latch.op0) (uval s.block.latch.op1)
  obtain ⟨hx, hy⟩ := xgcd_abs_lt hw ha hb
  simp only [htriple] at hgcd hx hy
  have hresult : xgcdResult fd0 fd1 fd2 s.block.latch =
      .ok [(fd0, enc _ g), (fd1, enc _ x), (fd2, enc _ y)] := by
    rw [xgcdResult_eq hw fd0 fd1 fd2 s.block.latch htriple, ← BitVec.ofInt_natCast]
    rfl
  obtain ⟨h0, h1, h2⟩ := s.block.reg_complete_three hwf (enc _ g) (enc _ x) (enc _ y)
  refine ⟨s.block.complete (.ok [(fd0, enc _ g), (fd1, enc _ x), (fd2, enc _ y)]),
    by rw [exec_xgcd, hresult], rfl, ?_, ?_, ?_⟩
  · rw [h0, uval_enc (hgcd ▸ gcd_lt_of_lt ha hb)]
  · rw [h1, sval_enc (by omega) (fitsSigned_of_abs_lt hx)]
  · rw [h2, sval_enc (by omega) (fitsSigned_of_abs_lt hy)]

/-- Settles O22: the registers hold `xgcd`'s triple, so Bézout's identity, the gcd and the bound are those
of `xgcd`. -/
theorem xgcdResultsSatisfyBezout : Obligations.XgcdResultsSatisfyBezout := by
  unfold Obligations.XgcdResultsSatisfyBezout
  intro s h fd0 fd1 fd2 fs0 fs1 hwf
  obtain ⟨b, hexec, herr, hg, hx, hy⟩ := exec_xgcd_reg (s := s) hwf rfl
  obtain ⟨hxlt, hylt⟩ := xgcd_abs_lt s.two_le_width (uval_lt s.block.latch.op0)
    (uval_lt s.block.latch.op1)
  refine ⟨b, hexec, herr, ?_⟩
  rw [hg, hx, hy]
  exact ⟨xgcd_bezout _ _, xgcd_gcd _ _, Int.le_sub_one_of_lt hxlt, Int.le_sub_one_of_lt hylt⟩

/-! ### The inverse and its uniqueness (R82) -/

/-- A success with one result leaves it in its register. -/
theorem Block.reg_complete_one {w : Nat} (b : Block w) (k : Reg) (x : BitVec w) :
    (b.complete (.ok [(k, x)])).reg k = x :=
  b.reg_setReg_self k x

/-- A number coprime to m has at most one inverse in [0, m); m = 1 is included, where 1 % m is 0. -/
theorem inverse_unique {a m r r' : Nat} (hg : Nat.gcd a m = 1) (hr : r < m) (hr' : r' < m)
    (hinv : a * r % m = 1 % m) (hinv' : a * r' % m = 1 % m) : r' = r := by
  have hmod : a * r' ≡ a * r [MOD m] := hinv'.trans hinv.symm
  have hcancel : r' ≡ r [MOD m] := hmod.cancel_left_of_coprime ((Nat.gcd_comm m a).trans hg)
  exact hcancel.eq_of_lt_of_lt hr' hr

/-- Settles O25: MODINV writes the answer of `modInverse`, which fits as it is below m. -/
theorem modinvResultIsTheUniqueInverse : Obligations.ModinvResultIsTheUniqueInverse := by
  unfold Obligations.ModinvResultIsTheUniqueInverse
  rintro s fd0 fs0 fs1 _ _ rfl rfl hg hm
  obtain ⟨r, hok, -, hlt, hinv⟩ := modInverse_ok hg hm
  have hresult : modinvResult fd0 s.block.latch = .ok [(fd0, enc _ r)] := by rw [modinvResult, hok]
  refine ⟨s.block.complete (.ok [(fd0, enc _ r)]), by rw [exec_modinv, hresult], rfl, ?_⟩
  rw [Block.reg_complete_one, uval_enc (hlt.trans (uval_lt _))]
  exact ⟨hlt, hinv, fun r' hlt' => inverse_unique hg hlt hlt' hinv⟩

end Sys2Proof.Machine
